-- ==== Sys2Proof/Word.lean ====
section
/-! DEFINITION. The word types of the core (spec/00_scope.md R8, R9): unsigned integers of fixed width, bit 0 least significant. -/

namespace Sys2Proof

/-- `u8`: one message byte. -/
abbrev Byte := BitVec 8

/-- `u64`: the width of the hash datapath, of the sizing parameter `NBITS` and of one word of `MEM`. -/
abbrev Word := BitVec 64

/-- A command, format `C` (R70). -/
abbrev CommandWord := BitVec 144

/-- A response, format `P` (R71). -/
abbrev ResponseWord := BitVec 136

end Sys2Proof
end

