-- ==== Sys2Proof/Syntax.lean ====
section
/-! DEFINITION. The commands of the core: one constructor per row of spec/opcode_table.json (spec/30_encoding.md R72, R73). -/

namespace Sys2Proof

/-- A command with its operands, each of the width its field has (R73, R74). -/
inductive Instr where
  /-- `RDREG` (R150): `rn` is the field `a`. -/
  | rdreg (rn : BitVec 8)
  /-- `ERRCLR` (R151). -/
  | errclr
  /-- `BGET` (R91): `idx = d_lo`. -/
  | bget (idx : Word)
  /-- `BSET` (R92): `idx = d_lo`. -/
  | bset (idx : Word)
  /-- `HSTART` and `HSTART.B` (R101): `blkonly = a[0]`, `seed = d[31:0]`. -/
  | hstart (blkonly : Bool) (seed : BitVec 32)
  /-- `HPUSH` (R104): `n = a`, and the whole field `d`, whose lanes at and above `n` are ignored. -/
  | hpush (n : BitVec 8) (d : BitVec 128)
  /-- `HFIN` (R107). -/
  | hfin
  /-- `DLOAD` (R108): `h1 = d_lo`, `h2 = d_hi`. -/
  | dload (h1 h2 : Word)
  /-- `DERIVE` (R121): `i = d[15:0]`. -/
  | derive (i : BitVec 16)
  /-- `CFG` (R131): `nbits = d_lo`, `k = d[79:64]`. -/
  | cfg (nbits : Word) (k : BitVec 16)
  /-- `SEAL` (R132). -/
  | sealFilter
  /-- `TRAIN` (R133). -/
  | train
  /-- `QUERY` and `QUERY.NULL` (R134): `null = a[0]`. -/
  | query (null : Bool)
  deriving DecidableEq, Repr

end Sys2Proof
end

