-- ==== Sys2Proof/WellFormed.lean ====
section
/-! DEFINITION. Which terms of `Instr` stand for a legal command word (spec/30_encoding.md R73, R75). -/

namespace Sys2Proof

/-- The two conditions on operands that are not field widths (R75 (c) and (d)): a register number is at most `0x0F`,
and an `HPUSH` carries 1 to 16 bytes. Every other term has a legal encoding. -/
def wellFormed : Instr → Bool
  | .rdreg rn => decide (rn.toNat ≤ 0x0F)
  | .hpush n _ => decide (1 ≤ n.toNat) && decide (n.toNat ≤ 16)
  | .errclr => true
  | .bget _ => true
  | .bset _ => true
  | .hstart _ _ => true
  | .hfin => true
  | .dload _ _ => true
  | .derive _ => true
  | .cfg _ _ => true
  | .sealFilter => true
  | .train => true
  | .query _ => true

end Sys2Proof
end

