-- ==== Sys2Proof/Decode.lean ====
section
/-! DEFINITION. Decoding and encoding of command words (spec/30_encoding.md R70 to R77). -/

namespace Sys2Proof

/-! ## Fields (R70) -/

/-- The field `op`, bits 143 to 136. -/
def opField (w : CommandWord) : BitVec 8 := w.extractLsb' 136 8

/-- The field `a`, bits 135 to 128. -/
def aField (w : CommandWord) : BitVec 8 := w.extractLsb' 128 8

/-- The field `d`, bits 127 to 0. -/
def dField (w : CommandWord) : BitVec 128 := w.extractLsb' 0 128

/-- `{op, a}`, bits 143 to 128: what `ERRCMD` records (R32, R163). -/
def headField (w : CommandWord) : BitVec 16 := w.extractLsb' 128 16

/-- The command word `op_a_d` (R70). -/
def commandWord (op a : BitVec 8) (d : BitVec 128) : CommandWord := (op ++ a) ++ d

/-! ## Decoding -/

/-- Why a command word is not a legal encoding (R75, R76). -/
inductive DecodeReject where
  /-- `op` is none of the 13 of R72. -/
  | reservedOpcode
  /-- A bit that must be zero is one. -/
  | mustBeZero
  /-- `RDREG` with `a > 0x0F`. -/
  | reservedRegister
  /-- `HPUSH` with `a = 0` or `a > 16`. -/
  | badByteCount
  deriving DecidableEq, Repr

/-- `i` where the must-be-zero bits are zero. -/
def ifZero (mbzClear : Bool) (i : Instr) : Except DecodeReject Instr :=
  if mbzClear then .ok i else .error .mustBeZero

/-- The command a word encodes, or why it encodes none. Total on every word; the machine's state plays no part (R77). -/
def decode (w : CommandWord) : Except DecodeReject Instr :=
  let a := aField w
  let d := dField w
  if opField w = 0x10#8 then
    if d ≠ 0 then .error .mustBeZero
    else if 0x0F < a.toNat then .error .reservedRegister
    else .ok (.rdreg a)
  else if opField w = 0x11#8 then ifZero (a == 0 && d == 0) .errclr
  else if opField w = 0x20#8 then ifZero (a == 0 && d.extractLsb' 64 64 == 0) (.bget (d.extractLsb' 0 64))
  else if opField w = 0x21#8 then ifZero (a == 0 && d.extractLsb' 64 64 == 0) (.bset (d.extractLsb' 0 64))
  else if opField w = 0x30#8 then
    ifZero (a.extractLsb' 1 7 == 0 && d.extractLsb' 32 96 == 0) (.hstart (a.getLsbD 0) (d.extractLsb' 0 32))
  else if opField w = 0x31#8 then
    if a.toNat = 0 ∨ 16 < a.toNat then .error .badByteCount else .ok (.hpush a d)
  else if opField w = 0x32#8 then ifZero (a == 0 && d == 0) .hfin
  else if opField w = 0x33#8 then ifZero (a == 0) (.dload (d.extractLsb' 0 64) (d.extractLsb' 64 64))
  else if opField w = 0x40#8 then ifZero (a == 0 && d.extractLsb' 16 112 == 0) (.derive (d.extractLsb' 0 16))
  else if opField w = 0x50#8 then
    ifZero (a == 0 && d.extractLsb' 80 48 == 0) (.cfg (d.extractLsb' 0 64) (d.extractLsb' 64 16))
  else if opField w = 0x51#8 then ifZero (a == 0 && d == 0) .sealFilter
  else if opField w = 0x52#8 then ifZero (a == 0 && d == 0) .train
  else if opField w = 0x53#8 then ifZero (a.extractLsb' 1 7 == 0 && d == 0) (.query (a.getLsbD 0))
  else .error .reservedOpcode

/-- A word of the opcode table, whose bits above `nbits` are zero, read by `decode`: the table numbers the 144 bits of
the one word of a command as R70 does. -/
def decodeTableWord (nbits w : Nat) : Option Instr :=
  match decode (BitVec.ofNat 144 (w % 2 ^ nbits)) with
  | .ok i => some i
  | .error _ => none

/-! ## Encoding -/

/-- The opcode of a command (R72). -/
def opcode : Instr → BitVec 8
  | .rdreg _ => 0x10#8
  | .errclr => 0x11#8
  | .bget _ => 0x20#8
  | .bset _ => 0x21#8
  | .hstart _ _ => 0x30#8
  | .hpush _ _ => 0x31#8
  | .hfin => 0x32#8
  | .dload _ _ => 0x33#8
  | .derive _ => 0x40#8
  | .cfg _ _ => 0x50#8
  | .sealFilter => 0x51#8
  | .train => 0x52#8
  | .query _ => 0x53#8

/-- One bit as an 8-bit field: the flag operand `a[0]` of `HSTART` and `QUERY`. -/
def flagField (b : Bool) : BitVec 8 := if b then 1#8 else 0#8

/-- The small operand `a` (R73). -/
def smallOperand : Instr → BitVec 8
  | .rdreg rn => rn
  | .hstart blkonly _ => flagField blkonly
  | .hpush n _ => n
  | .query null => flagField null
  | .errclr => 0#8
  | .bget _ => 0#8
  | .bset _ => 0#8
  | .hfin => 0#8
  | .dload _ _ => 0#8
  | .derive _ => 0#8
  | .cfg _ _ => 0#8
  | .sealFilter => 0#8
  | .train => 0#8

/-- The large operand `d` (R73). -/
def largeOperand : Instr → BitVec 128
  | .bget idx => 0#64 ++ idx
  | .bset idx => 0#64 ++ idx
  | .hstart _ seed => 0#96 ++ seed
  | .hpush _ d => d
  | .dload h1 h2 => h2 ++ h1
  | .derive i => 0#112 ++ i
  | .cfg nbits k => (0#48 ++ k) ++ nbits
  | .rdreg _ => 0#128
  | .errclr => 0#128
  | .hfin => 0#128
  | .sealFilter => 0#128
  | .train => 0#128
  | .query _ => 0#128

/-- `{op, a}` of a command: what `ERRCMD` holds when it raises (R163). -/
def commandHead (i : Instr) : BitVec 16 := opcode i ++ smallOperand i

/-- The command word of a command (R70, R73). -/
def encode (i : Instr) : CommandWord := commandWord (opcode i) (smallOperand i) (largeOperand i)

/-! ## The table of R73, as the spec writes it -/

/-- A row of R73: a word `c` is a legal encoding of the row's command if `c &&& mask = pat` and `further` holds of the
field `a`. -/
structure EncodingRow where
  mnemonic : String
  pat : CommandWord
  mask : CommandWord
  /-- The least and the greatest `a` the further condition admits. -/
  aMin : Nat
  aMax : Nat
  deriving DecidableEq, Repr

/-- Whether a word is a legal encoding by a row of R73. -/
def EncodingRow.admits (r : EncodingRow) (w : CommandWord) : Bool :=
  w &&& r.mask == r.pat && decide (r.aMin ≤ (aField w).toNat) && decide ((aField w).toNat ≤ r.aMax)

/-- R73's thirteen rows, `pat` and `mask` digit for digit. `decode` does not use it: the two are compared by a statement. -/
def encodingTable : List EncodingRow :=
  [ ⟨"RDREG",  0x100000000000000000000000000000000000#144, 0xFFF0FFFFFFFFFFFFFFFFFFFFFFFFFFFFFFFF#144, 0, 15⟩,
    ⟨"ERRCLR", 0x110000000000000000000000000000000000#144, 0xFFFFFFFFFFFFFFFFFFFFFFFFFFFFFFFFFFFF#144, 0, 255⟩,
    ⟨"BGET",   0x200000000000000000000000000000000000#144, 0xFFFFFFFFFFFFFFFFFFFF0000000000000000#144, 0, 255⟩,
    ⟨"BSET",   0x210000000000000000000000000000000000#144, 0xFFFFFFFFFFFFFFFFFFFF0000000000000000#144, 0, 255⟩,
    ⟨"HSTART", 0x300000000000000000000000000000000000#144, 0xFFFEFFFFFFFFFFFFFFFFFFFFFFFF00000000#144, 0, 255⟩,
    ⟨"HPUSH",  0x310000000000000000000000000000000000#144, 0xFF0000000000000000000000000000000000#144, 1, 16⟩,
    ⟨"HFIN",   0x320000000000000000000000000000000000#144, 0xFFFFFFFFFFFFFFFFFFFFFFFFFFFFFFFFFFFF#144, 0, 255⟩ ] ++
  [ ⟨"DLOAD",  0x330000000000000000000000000000000000#144, 0xFFFF00000000000000000000000000000000#144, 0, 255⟩,
    ⟨"DERIVE", 0x400000000000000000000000000000000000#144, 0xFFFFFFFFFFFFFFFFFFFFFFFFFFFFFFFF0000#144, 0, 255⟩,
    ⟨"CFG",    0x500000000000000000000000000000000000#144, 0xFFFFFFFFFFFFFFFF00000000000000000000#144, 0, 255⟩,
    ⟨"SEAL",   0x510000000000000000000000000000000000#144, 0xFFFFFFFFFFFFFFFFFFFFFFFFFFFFFFFFFFFF#144, 0, 255⟩,
    ⟨"TRAIN",  0x520000000000000000000000000000000000#144, 0xFFFFFFFFFFFFFFFFFFFFFFFFFFFFFFFFFFFF#144, 0, 255⟩,
    ⟨"QUERY",  0x530000000000000000000000000000000000#144, 0xFFFEFFFFFFFFFFFFFFFFFFFFFFFFFFFFFFFF#144, 0, 255⟩ ]

/-- The mnemonic of a command, as R72 writes it. -/
def mnemonic : Instr → String
  | .rdreg _ => "RDREG"
  | .errclr => "ERRCLR"
  | .bget _ => "BGET"
  | .bset _ => "BSET"
  | .hstart _ _ => "HSTART"
  | .hpush _ _ => "HPUSH"
  | .hfin => "HFIN"
  | .dload _ _ => "DLOAD"
  | .derive _ => "DERIVE"
  | .cfg _ _ => "CFG"
  | .sealFilter => "SEAL"
  | .train => "TRAIN"
  | .query _ => "QUERY"

end Sys2Proof
end

