-- ==== Sys2Proof/Config.lean ====
section
/-! DEFINITION. What an instance of the core fixes (spec/00_scope.md R6) and the one free value (spec/10_state.md R42). -/

namespace Sys2Proof.Config

/-- The parameter `ABSMIN_MAGIC`: what `magic` is in the deriver when `t` is the most negative 64-bit integer
(R6, D10, conflict C1). The spec admits exactly these two values. -/
inductive AbsMin where
  /-- `2^63`, the default: "negation as itself". -/
  | negationAsItself
  /-- `2^63 - 1`, the alternative: "saturate". -/
  | saturate
  deriving DecidableEq, Repr

/-- The parameters of one instance of the core (R6, R14): not state of the spec, and no step changes them.
`W = 64` is fixed and `PORTS` is not modelled. -/
structure Instance where
  /-- `NWORDS`, the depth of `MEM` in 64-bit words. -/
  nwords : BitVec 32
  /-- `K_MAX`, the largest `numberOfHashFunctions` accepted. -/
  kMax : BitVec 16
  /-- `ABSMIN_MAGIC`. -/
  absMin : AbsMin
  deriving DecidableEq, Repr

/-- The ranges R6 gives: `2 ≤ NWORDS ≤ 2^32 - 1` and `1 ≤ K_MAX ≤ 65535` (the upper bounds are the widths). -/
def Instance.legal (c : Instance) : Bool :=
  decide (2 ≤ c.nwords.toNat) && decide (1 ≤ c.kMax.toNat)

/-- The reference instance of R6, on which every vector of spec/95_test_vectors.md was evaluated. -/
def reference : Instance :=
  { nwords := 1024#32, kMax := 64#16, absMin := .negationAsItself }

/-- FREE VALUE. What `MEM` holds after the `n`-th reset event of a run: "every word holds any value" (R42, U11).
It has no body, so nothing can be proved of it. DESIGN CHOICE, log 6. -/
opaque memAfterReset : Nat → List Host.Cell

end Sys2Proof.Config
end

