-- ==== Sys2Proof/Machine/State.lean ====
section
/-! DEFINITION. The state of the core (spec/10_state.md R20), the host's side of its port, and the state after reset (R42). -/

namespace Sys2Proof.Machine

/-- `FPHASE` (R27, R130): the filter's phase. The code 3 never occurs (log 11). -/
inductive Phase where
  /-- No filter exists: code 0. -/
  | unconf
  /-- A filter is being built: code 1. -/
  | training
  /-- The filter is built and immutable: code 2. -/
  | sealed
  deriving DecidableEq, Repr

/-- The registers `RDREG` can name (R38). -/
inductive RegName where
  | ID | PARAM | STATUS | ERR | ERRCMD | NBITS | K | AWORDS
  | SEED | H1 | H2 | LEN | BUFLO | BUFHI | IDX | PROBES
  deriving DecidableEq, Repr

/-- The errors a command can raise (R160); each is a NEXT state, with the code in `ERR` and in the response. -/
inductive CmdError where
  | illegal | seq | cfg | unsat | malformed | sealed | range | len
  deriving DecidableEq, Repr

/-- What the host can send: a command word, or the reset event, which happens between two commands (R190). -/
inductive HostEvent where
  | command (w : CommandWord)
  | reset
  deriving DecidableEq, Repr

/-- A response (R71): status `st` and result data `r`. Its 136-bit word is `responseWord`. -/
structure Response where
  st : BitVec 8
  r : BitVec 128
  deriving DecidableEq, Repr

/-- `MEM` as byte cells: word `w` (R39, R50) is the cells `8w` to `8w + 7`, cell `8w + j` holding bits `[8j+7:8j]` (log 1). -/
abbrev Memory := List Host.Cell

/-- Why a step stops. No run from reset reaches either fault: both need a state that breaks an invariant of R41. -/
inductive Fault where
  /-- Raised by the memory accesses where the word index `w` is not below `NWORDS`: no such word (R50). Safe: the model
  stops where the spec defines no access. -/
  | memNoSuchWord (w : Nat)
  /-- Raised by the memory accesses where the word index `w` exists and is not below `AWORDS`: not allocated (R50). Safe. -/
  | memNotAllocated (w : Nat)
  /-- Raised by the deriver where `NBITS = 0`, a remainder by zero that no rule forms (R10, R120). Safe. -/
  | sizeZero
  deriving DecidableEq, Repr

/-- Why an instruction has no meaning. -/
inductive Refusal where
  /-- Raised by an arm of `exec` whose instruction has no meaning yet: none is left. Safe. -/
  | notModelled (mnemonic : String)
  deriving DecidableEq, Repr

/-- The state. The first nineteen fields are the tuple of R20; the last four are the model's own. -/
structure State where
  /-- `H1` (R21): running state, then the digest's first half. -/
  h1 : Word
  /-- `H2` (R21). -/
  h2 : Word
  /-- `LEN` (R22): message bytes absorbed since the last `HSTART`. -/
  len : Word
  /-- `BUF` (R23): sixteen bytes, `BUF[j]` at bits `[8j+7:8j]` (R11; log 10). -/
  buf : BitVec 128
  /-- `FILL` (R23): how many bytes of `BUF` are valid. -/
  fill : BitVec 4
  /-- `SEED` (R24). -/
  seed : BitVec 32
  /-- `IDX` (R25): the last derived bit index. -/
  idx : Word
  /-- `PROBES` (R26): the bit tests of the last `QUERY`. -/
  probes : BitVec 16
  /-- `RESULT` (R31): the answer of the last `QUERY`. -/
  result : Bool
  /-- `NBITS` (R35): `numberOfBits`. -/
  nbits : Word
  /-- `K` (R35): `numberOfHashFunctions`. -/
  k : BitVec 16
  /-- `AWORDS` (R35): words allocated to the bit array. -/
  awords : BitVec 32
  /-- `FPHASE` (R27). -/
  fphase : Phase
  /-- `HACT` (R28): a message is being absorbed. -/
  hact : Bool
  /-- `DV` (R29): `H1`, `H2` hold a finished digest. -/
  dv : Bool
  /-- `BLKONLY` (R30): raw-block-only mode. -/
  blkonly : Bool
  /-- `ERR` (R32): the first error since the last `ERRCLR`, or 0. -/
  err : BitVec 8
  /-- `ERRCMD` (R32): `{op, a}` of the command that set `ERR`. -/
  errcmd : BitVec 16
  /-- `MEM` (R39). -/
  mem : Memory
  /-- The model's own: which instance of the core this is (R6, R14). No step changes it (log 3). -/
  inst : Config.Instance
  /-- The model's own: what the host has sent and the core has not taken, oldest first (R13, R190; log 4). -/
  hostIn : List HostEvent
  /-- The model's own: the responses given, oldest first: what the host observes (R192; log 5). -/
  hostOut : List Response
  /-- The model's own: how many reset events were taken, the argument of the free value `Config.memAfterReset` (log 6). -/
  draws : Nat
  deriving DecidableEq, Repr

/-- The three outcomes of a step of this machine. -/
abbrev Result := Host.Outcome State Fault Refusal

/-- The state after reset (R42) of the reference instance (log 3), with nothing sent and nothing answered. -/
def State.reset : State :=
  { h1 := 0, h2 := 0, len := 0, buf := 0, fill := 0, seed := 0, idx := 0, probes := 0, result := false
    nbits := 0, k := 0, awords := 0, fphase := .unconf, hact := false, dv := false, blkonly := false
    err := 0, errcmd := 0, mem := []
    inst := Config.reference, hostIn := [], hostOut := [], draws := 0 }

end Sys2Proof.Machine
end

