-- ==== Sys2Proof/Machine/Operands.lean ====
section
/-! DEFINITION. Operand assembly: byte lanes, the bytes of an `HPUSH`, word slicing of a bit index (spec/00_scope.md R11,
spec/30_encoding.md R74, spec/40_bitset.md R90). -/

namespace Sys2Proof.Machine

/-- Byte lane `j` of a wide value, bits `[8j+7:8j]` (R11). -/
def byteLane {n : Nat} (v : BitVec n) (j : Nat) : Byte := v.extractLsb' (8 * j) 8

/-- `v` with byte lane `j` replaced by `b`. -/
def setByteLane (v : BitVec 128) (j : Nat) (b : Byte) : BitVec 128 :=
  (v &&& ~~~(0xFF#128 <<< (8 * j))) ||| (b.setWidth 128 <<< (8 * j))

/-- The low half of a 16-byte carrier: bytes 0 to 7, little-endian (`d_lo`, `BUFLO`, `k1`; R23, R52, R70). -/
def loHalf (v : BitVec 128) : Word := v.extractLsb' 0 64

/-- The high half: bytes 8 to 15 (`d_hi`, `BUFHI`, `k2`). -/
def hiHalf (v : BitVec 128) : Word := v.extractLsb' 64 64

/-- Bytes packed in lane order, the first at bits 7 to 0, higher lanes zero (R11). -/
def packBytes : List Byte → BitVec 128
  | [] => 0
  | b :: bs => (packBytes bs <<< 8) ||| b.setWidth 128

/-- The message bytes of an `HPUSH`: lanes 0 to `n - 1` of `d`, lane 0 first (R73, R74). -/
def pieceBytes (n : BitVec 8) (d : BitVec 128) : List Byte := (List.range n.toNat).map (byteLane d)

/-- The seed as a 64-bit value: zero-extended, never sign-extended (R74, R101). -/
def seedWord (seed : BitVec 32) : Word := seed.setWidth 64

/-- `wordIndex(idx) = idx div 64` (R90). -/
def wordIndex (idx : Word) : Nat := idx.toNat / 64

/-- `bitOffset(idx) = idx mod 64` (R90). -/
def bitOffset (idx : Word) : Nat := idx.toNat % 64

/-- `ceil(nbits / 64) + 1`, computed without wrap: the words `CFG` allocates (R131, R35). -/
def allocWords (nbits : Word) : Nat := (nbits.toNat + 63) / 64 + 1

end Sys2Proof.Machine
end

