-- ==== Sys2Proof/Machine/Flags.lean ====
section
/-! DEFINITION. Codes, flags and the register map: `FPHASE`'s code, the error codes, `STATUS`, `ID`, `PARAM`, `RDREG`'s registers
(spec/10_state.md R27, R32 to R38, spec/60_exceptions.md R160). -/

namespace Sys2Proof.Machine

/-- The 2-bit code of `FPHASE` (R27). -/
def phaseCode : Phase → BitVec 2
  | .unconf => 0#2
  | .training => 1#2
  | .sealed => 2#2

/-- The code of an error (R160). -/
def errCode : CmdError → BitVec 8
  | .illegal => 0x01#8
  | .seq => 0x02#8
  | .cfg => 0x03#8
  | .unsat => 0x04#8
  | .malformed => 0x05#8
  | .sealed => 0x06#8
  | .range => 0x07#8
  | .len => 0x08#8

/-- The status `OK` (R160). -/
def stOk : BitVec 8 := 0x00#8

/-- The status `E_FAULTED` (R160), never stored in `ERR`. -/
def stFaulted : BitVec 8 := 0x7F#8

/-- "Faulted" means `ERR ≠ 0` (R32): tested on `ERR`, never on `ERRCMD` (R41 item 7). -/
def faulted (s : State) : Bool := s.err != 0

/-- A flag as one bit. -/
def flagBit (b : Bool) : BitVec 1 := BitVec.ofBool b

/-- The identity word (R33). -/
def idWord : Word := 0x000000014D483342#64

/-- `PARAM` (R34): `NWORDS`, `K_MAX` and `W = 64` of the instance. -/
def paramWord (c : Config.Instance) : Word := ((0#8 ++ 64#8) ++ c.kMax) ++ c.nwords

/-- `STATUS` (R37), from bit 63 down: zeros, `FAULTED`, `RESULT`, `FILL`, `BLKONLY`, `DV`, `HACT`, `FPHASE`. -/
def statusWord (s : State) : Word :=
  ((((((0#53 ++ flagBit (faulted s)) ++ flagBit s.result) ++ s.fill) ++ flagBit s.blkonly) ++ flagBit s.dv)
    ++ flagBit s.hact) ++ phaseCode s.fphase

/-- The register with a number, if the number is not reserved (R38). -/
def regOfNumber (rn : BitVec 8) : Option RegName :=
  match rn.toNat with
  | 0x00 => some .ID
  | 0x01 => some .PARAM
  | 0x02 => some .STATUS
  | 0x03 => some .ERR
  | 0x04 => some .ERRCMD
  | 0x05 => some .NBITS
  | 0x06 => some .K
  | 0x07 => some .AWORDS
  | 0x08 => some .SEED
  | 0x09 => some .H1
  | 0x0A => some .H2
  | 0x0B => some .LEN
  | 0x0C => some .BUFLO
  | 0x0D => some .BUFHI
  | 0x0E => some .IDX
  | 0x0F => some .PROBES
  | _ => none

/-- The number of a register (R38). -/
def regNumber : RegName → BitVec 8
  | .ID => 0x00#8
  | .PARAM => 0x01#8
  | .STATUS => 0x02#8
  | .ERR => 0x03#8
  | .ERRCMD => 0x04#8
  | .NBITS => 0x05#8
  | .K => 0x06#8
  | .AWORDS => 0x07#8
  | .SEED => 0x08#8
  | .H1 => 0x09#8
  | .H2 => 0x0A#8
  | .LEN => 0x0B#8
  | .BUFLO => 0x0C#8
  | .BUFHI => 0x0D#8
  | .IDX => 0x0E#8
  | .PROBES => 0x0F#8

/-- The value `RDREG` reads, zero-extended to 64 bits (R38, R150). -/
def regValue (s : State) : RegName → Word
  | .ID => idWord
  | .PARAM => paramWord s.inst
  | .STATUS => statusWord s
  | .ERR => s.err.setWidth 64
  | .ERRCMD => s.errcmd.setWidth 64
  | .NBITS => s.nbits
  | .K => s.k.setWidth 64
  | .AWORDS => s.awords.setWidth 64
  | .SEED => s.seed.setWidth 64
  | .H1 => s.h1
  | .H2 => s.h2
  | .LEN => s.len
  | .BUFLO => loHalf s.buf
  | .BUFHI => hiHalf s.buf
  | .IDX => s.idx
  | .PROBES => s.probes.setWidth 64

end Sys2Proof.Machine
end

