-- ==== Sys2Proof/Machine/Ops.lean ====
section
/-! DEFINITION. The named operations over memory, responses and errors: byte and word accesses of `MEM`, `BitGet` and `BitSet`,
`respond`, `raise`, the faulted refusal, the return from it, the reset event, and taking the host's next event. -/

namespace Sys2Proof.Machine

/-! ## The list of byte cells -/

/-- What a byte of `MEM` that no cell lists reads as. DESIGN CHOICE, unsafe and unobservable: R42 leaves it open (log 2). -/
def Memory.unlisted : Byte := 0#8

/-- The byte at an address. -/
def Memory.readByte : Memory → Nat → Byte
  | [], _ => Memory.unlisted
  | (a, b) :: m, k => if a = k then b else Memory.readByte m k

/-- The cells but those at address `k`. -/
def Memory.erase (m : Memory) (k : Nat) : Memory := m.filter fun c => c.1 != k

/-- A cell put in its place by address. -/
def Memory.insert : Memory → Nat → Byte → Memory
  | [], k, b => [(k, b)]
  | (a, c) :: m, k, b => if k < a then (k, b) :: (a, c) :: m else (a, c) :: Memory.insert m k b

/-- Write one byte, keeping the canonical form: writing what an unlisted address reads as removes the cell. -/
def Memory.writeByte (m : Memory) (k : Nat) (b : Byte) : Memory :=
  if b = Memory.unlisted then Memory.erase m k else Memory.insert (Memory.erase m k) k b

/-- The canonical form: addresses strictly rising, no cell equal to what an unlisted address reads as. -/
def Memory.wf (m : Memory) : Bool :=
  decide (m.Pairwise fun x y => x.1 < y.1) && m.all fun c => c.2 != Memory.unlisted

/-- Every listed cell belongs to one of the first `n` words. -/
def Memory.within (m : Memory) (n : Nat) : Bool := m.all fun c => decide (c.1 < 8 * n)

/-- The 64-bit word at word index `w`: its eight byte cells, the lowest address in the low lane (R50; log 1). -/
def Memory.readWord (m : Memory) (w : Nat) : Word :=
  ((((((Memory.readByte m (8 * w + 7) ++ Memory.readByte m (8 * w + 6)) ++ Memory.readByte m (8 * w + 5))
    ++ Memory.readByte m (8 * w + 4)) ++ Memory.readByte m (8 * w + 3)) ++ Memory.readByte m (8 * w + 2))
    ++ Memory.readByte m (8 * w + 1)) ++ Memory.readByte m (8 * w)

/-- Write byte lanes `0` to `n - 1` of `v` into word `w`. -/
def Memory.writeLanes (m : Memory) (w : Nat) (v : Word) : Nat → Memory
  | 0 => m
  | n + 1 => Memory.writeByte (Memory.writeLanes m w v n) (8 * w + n) (byteLane v n)

/-- Write the 64-bit word at word index `w`. -/
def Memory.writeWord (m : Memory) (w : Nat) (v : Word) : Memory := Memory.writeLanes m w v 8

/-- Cells in any order, put into canonical form; those outside the first `n` words are dropped. -/
def Memory.ofCells (n : Nat) (cells : List Host.Cell) : Memory :=
  cells.foldl (fun m c => if c.1 < 8 * n then Memory.writeByte m c.1 c.2 else m) []

/-! ## Access to `MEM` -/

/-- An access to word `w` is defined only where the word exists and is allocated (R50). -/
def checkWord (s : State) (w : Nat) : Except Fault Unit :=
  if s.inst.nwords.toNat ≤ w then .error (.memNoSuchWord w)
  else if s.awords.toNat ≤ w then .error (.memNotAllocated w)
  else .ok ()

/-- `MemRead(w, 8)` (R10, R50). -/
def memRead (s : State) (w : Nat) : Except Fault Word :=
  match checkWord s w with
  | .ok _ => .ok (Memory.readWord s.mem w)
  | .error f => .error f

/-- `MemWrite(w, 8, v)` (R10, R50). -/
def memWrite (s : State) (w : Nat) (v : Word) : Except Fault State :=
  match checkWord s w with
  | .ok _ => .ok { s with mem := Memory.writeWord s.mem w v }
  | .error f => .error f

/-- `BitGet(idx)` (R90): 0 or 1 as a `u64`. -/
def bitGet (s : State) (idx : Word) : Except Fault Word :=
  match memRead s (wordIndex idx) with
  | .ok v => .ok ((v >>> bitOffset idx) &&& 1#64)
  | .error f => .error f

/-- `BitSet(idx)` (R90): read, or in a 64-bit one, write back. -/
def bitSet (s : State) (idx : Word) : Except Fault State :=
  match memRead s (wordIndex idx) with
  | .ok v => memWrite s (wordIndex idx) (v ||| (1#64 <<< bitOffset idx))
  | .error f => .error f

/-- `MemWrite(w, 8, 0)` for `w = 0` to `n - 1` (R131). -/
def clearWords (s : State) : Nat → Except Fault State
  | 0 => .ok s
  | n + 1 =>
    match clearWords s n with
    | .ok t => memWrite t n 0#64
    | .error f => .error f

/-! ## Responses and errors -/

/-- The field `st` of a response word, bits 135 to 128 (R71). -/
def stField (v : ResponseWord) : BitVec 8 := v.extractLsb' 128 8

/-- The field `r` of a response word, bits 127 to 0 (R71). -/
def rField (v : ResponseWord) : BitVec 128 := v.extractLsb' 0 128

/-- The 136-bit word of a response, format `P` (R71, R77): `st` above `r`. -/
def responseWord (x : Response) : ResponseWord := x.st ++ x.r

/-- The response a 136-bit word of format `P` carries (R71). -/
def responseOfWord (v : ResponseWord) : Response := { st := stField v, r := rField v }

/-- The words the host has received, in the order of their commands (R71, R192). -/
def responsesSent (s : State) : List ResponseWord := s.hostOut.map responseWord

/-- `respond(st, r)`: the command's one response (R71). -/
def respond (s : State) (st : BitVec 8) (r : BitVec 128) : State :=
  { s with hostOut := s.hostOut ++ [{ st := st, r := r }] }

/-- `respond(0x00, r)`. -/
def answer (s : State) (r : BitVec 128) : State := respond s stOk r

/-- `raise E(cmd)` (R163): `head` is `cmd[143:128]`. The one operation every error goes through. -/
def raise (s : State) (e : CmdError) (head : BitVec 16) : State :=
  respond { s with err := errCode e, errcmd := head } (errCode e) 0

/-- The faulted refusal (R164): nothing changes, nothing is recorded. -/
def refuseFaulted (s : State) : State := respond s stFaulted 0

/-- The return from the faulted condition (R151, R165). -/
def clearError (s : State) : State := { s with err := 0, errcmd := 0 }

/-- The first of the tests of R162: while `ERR ≠ 0` a command is refused before anything else is looked at. -/
def whenReady (s : State) (body : Result) : Result :=
  if faulted s then .next (refuseFaulted s) else body

/-- An illegal command word with head `{op, a}`: refused while faulted, else `E_ILLEGAL` (R75, R162 steps 1 and 2). -/
def illegalWord (head : BitVec 16) (s : State) : State :=
  if faulted s then refuseFaulted s else raise s .illegal head

/-- A computation that may meet a fault of the model, as an outcome. -/
def finish : Except Fault State → Result
  | .ok s => .next s
  | .error f => .fault f

/-! ## The host's side -/

/-- The reset event (R42, R190): every element of R20 at its reset value, `MEM` at a free value (log 6). The instance, what
the host has sent and what it has been answered are not the core's state and stay. -/
def takeReset (s : State) : State :=
  { State.reset with
    mem := Memory.ofCells s.inst.nwords.toNat (Config.memAfterReset s.draws)
    inst := s.inst, hostIn := s.hostIn, hostOut := s.hostOut, draws := s.draws + 1 }

/-- The host's next event, and the state with it taken (R13, R36). -/
def nextEvent (s : State) : Option (HostEvent × State) :=
  match s.hostIn with
  | [] => none
  | e :: rest => some (e, { s with hostIn := rest })

/-- With nothing sent the core holds its state and does nothing (R175, R191). -/
def idle (s : State) : State := s

end Sys2Proof.Machine
end

