-- ==== Sys2Proof/Machine/Bitset.lean ====
section
/-! DEFINITION. The packed bit array commands `BGET` and `BSET` (spec/40_bitset.md). -/

namespace Sys2Proof.Machine

/-- `BGET idx` (R91). -/
def execBget (idx : Word) (s : State) : Result :=
  whenReady s <|
    if s.fphase = .unconf then .next (raise s .seq (commandHead (.bget idx)))
    else if 64 * s.awords.toNat ≤ idx.toNat then .next (raise s .range (commandHead (.bget idx)))
    else
      match bitGet s idx with
      | .ok v => .next (answer s (v.setWidth 128))
      | .error f => .fault f

/-- `BSET idx` (R92). -/
def execBset (idx : Word) (s : State) : Result :=
  whenReady s <|
    if s.fphase = .unconf then .next (raise s .seq (commandHead (.bset idx)))
    else if s.fphase = .sealed then .next (raise s .sealed (commandHead (.bset idx)))
    else if 64 * s.awords.toNat ≤ idx.toNat then .next (raise s .range (commandHead (.bset idx)))
    else
      match bitSet s idx with
      | .ok t => .next (answer t 0)
      | .error f => .fault f

end Sys2Proof.Machine
end

