-- ==== Sys2Proof/Machine/Deriver.lean ====
section
/-! DEFINITION. The bit-position deriver and the command `DERIVE` (spec/42_deriver.md). -/

namespace Sys2Proof.Machine

/-- The value `magic` takes when `t` is the most negative 64-bit integer (R6, D10, conflict C1). -/
def absMinMagic : Config.AbsMin → Word
  | .negationAsItself => 0x8000000000000000#64
  | .saturate => 0x7FFFFFFFFFFFFFFF#64

/-- `magic` of R120: the absolute value of the signed reading of `t`, as an unsigned number. -/
def magicOf (am : Config.AbsMin) (t : Word) : Word :=
  if t.msb = false then t
  else if t = 0x8000000000000000#64 then absMinMagic am
  else -t

/-- `t = (K - i) * h1 + i * h2 mod 2^64` (R120). -/
def affineSum (h1 h2 : Word) (k i : BitVec 16) : Word :=
  (k.setWidth 64 - i.setWidth 64) * h1 + i.setWidth 64 * h2

/-- `Derive(h1, h2, K, m, i)` (R120), for `m ≥ 1`. -/
def deriveValue (am : Config.AbsMin) (h1 h2 : Word) (k : BitVec 16) (m : Word) (i : BitVec 16) : Word :=
  magicOf am (affineSum h1 h2 k i) % m

/-- `Derive(H1, H2, K, NBITS, i)` on a state; a remainder by zero is a fault of the model (R10; log 8). -/
def deriveIndex (s : State) (i : BitVec 16) : Except Fault Word :=
  if s.nbits = 0 then .error .sizeZero
  else .ok (deriveValue s.inst.absMin s.h1 s.h2 s.k s.nbits i)

/-- `DERIVE i` (R121). -/
def execDerive (i : BitVec 16) (s : State) : Result :=
  whenReady s <|
    if s.fphase = .unconf then .next (raise s .seq (commandHead (.derive i)))
    else if s.dv = false then .next (raise s .seq (commandHead (.derive i)))
    else if s.k.toNat ≤ i.toNat then .next (raise s .range (commandHead (.derive i)))
    else
      match deriveIndex s i with
      | .ok v => .next (answer { s with idx := v } (v.setWidth 128))
      | .error f => .fault f

end Sys2Proof.Machine
end

