-- ==== Sys2Proof/Machine/Filter.lean ====
section
/-! DEFINITION. The filter commands `CFG`, `SEAL`, `TRAIN`, `QUERY` (spec/43_filter.md). -/

namespace Sys2Proof.Machine

/-- `CFG nbits, k` (R131): `AWORDS` words zeroed, every other part of the hash state left alone. -/
def execCfg (nbits : Word) (k : BitVec 16) (s : State) : Result :=
  let head := commandHead (.cfg nbits k)
  whenReady s <|
    if nbits = 0 then .next (raise s .cfg head)
    else if s.inst.nwords.toNat < allocWords nbits then .next (raise s .cfg head)
    else if k = 0 then .next (raise s .cfg head)
    else if s.inst.kMax.toNat < k.toNat then .next (raise s .unsat head)
    else
      match clearWords { s with nbits := nbits, k := k, awords := BitVec.ofNat 32 (allocWords nbits) }
          (allocWords nbits) with
      | .ok t =>
        .next (answer { t with fphase := .training, result := false, probes := 0, idx := 0 } (t.awords.setWidth 128))
      | .error f => .fault f

/-- `SEAL` (R132). -/
def execSeal (s : State) : Result :=
  whenReady s <|
    if s.fphase ≠ .training then .next (raise s .seq (commandHead .sealFilter))
    else .next (answer { s with fphase := .sealed } 0)

/-- `n` turns of `TRAIN`'s loop from iteration `i` on (R133). -/
def trainFrom : Nat → Nat → State → Except Fault State
  | 0, _, s => .ok s
  | n + 1, i, s =>
    match deriveIndex s (BitVec.ofNat 16 i) with
    | .error f => .error f
    | .ok v =>
      match bitSet { s with idx := v } v with
      | .error f => .error f
      | .ok t => trainFrom n (i + 1) t

/-- `TRAIN` (R133). -/
def execTrain (s : State) : Result :=
  whenReady s <|
    if s.fphase = .unconf then .next (raise s .seq (commandHead .train))
    else if s.fphase = .sealed then .next (raise s .sealed (commandHead .train))
    else if s.dv = false then .next (raise s .seq (commandHead .train))
    else
      match trainFrom s.k.toNat 0 s with
      | .ok t => .next (answer t 0)
      | .error f => .fault f

/-- `n` turns of `QUERY`'s loop from iteration `i` on, leaving at the first unset bit (R134): `hit`, and the state with
`IDX` and `PROBES` of the last turn. -/
def queryFrom : Nat → Nat → State → Except Fault (Bool × State)
  | 0, _, s => .ok (true, s)
  | n + 1, i, s =>
    match deriveIndex s (BitVec.ofNat 16 i) with
    | .error f => .error f
    | .ok v =>
      let t := { s with idx := v, probes := BitVec.ofNat 16 (i + 1) }
      match bitGet t v with
      | .error f => .error f
      | .ok b => if b = 0 then .ok (false, t) else queryFrom n (i + 1) t

/-- The response data of a plain `QUERY` (R134): `IDX`, zeros, `PROBES`, zeros, `hit`. -/
def queryAnswer (hit : Bool) (probes : BitVec 16) (idx : Word) : BitVec 128 :=
  (((idx ++ 0#32) ++ probes) ++ 0#15) ++ flagBit hit

/-- `QUERY`, `QUERY.NULL` (R134). -/
def execQuery (null : Bool) (s : State) : Result :=
  whenReady s <|
    if s.fphase = .unconf then .next (raise s .seq (commandHead (.query null)))
    else if null = true then .next (answer { s with result := false, probes := 0 } 0)
    else if s.dv = false then .next (raise s .seq (commandHead (.query null)))
    else
      match queryFrom s.k.toNat 0 s with
      | .ok (hit, t) => .next (answer { t with result := hit } (queryAnswer hit t.probes t.idx))
      | .error f => .fault f

end Sys2Proof.Machine
end

