-- ==== Sys2Proof/Machine/Hash.lean ====
section
/-! DEFINITION. The hash engine, MurmurHash3 x64-128 (spec/41_hash.md): its functions, the commands `HSTART`, `HPUSH`, `HFIN`,
`DLOAD`, and the hash as a function of seed and message (R109). -/

namespace Sys2Proof.Machine

/-! ## Constants and functions -/

/-- `c1` (R100). -/
def c1 : Word := 0x87c37b91114253d5#64

/-- `c2` (R100). -/
def c2 : Word := 0x4cf5ad432745937f#64

/-- `n1` (R100). -/
def n1 : Word := 0x52dce729#64

/-- `n2` (R100). -/
def n2 : Word := 0x38495ab5#64

/-- `f1` (R100). -/
def f1 : Word := 0xff51afd7ed558ccd#64

/-- `f2` (R100). -/
def f2 : Word := 0xc4ceb9fe1a85ec53#64

/-- `rotl64(x, r)` (R10). -/
def rotl64 (x : Word) (r : Nat) : Word := (x <<< r) ||| (x >>> (64 - r))

/-- `mixk1` (R102). -/
def mixk1 (k : Word) : Word := rotl64 (k * c1) 31 * c2

/-- `mixk2` (R102). -/
def mixk2 (k : Word) : Word := rotl64 (k * c2) 33 * c1

/-- `BlockStep(h1, h2, k1, k2)` (R103): the second half uses the new `h1`. -/
def blockStep (h1 h2 k1 k2 : Word) : Word × Word :=
  let h1' := (rotl64 (h1 ^^^ mixk1 k1) 27 + h2) * 5 + n1
  let h2' := (rotl64 (h2 ^^^ mixk2 k2) 31 + h1') * 5 + n2
  (h1', h2')

/-- `k ^ (k >> 33)`, the shift logical. -/
def xorShift33 (k : Word) : Word := k ^^^ (k >>> 33)

/-- `fmix64` (R105). -/
def fmix64 (k : Word) : Word := xorShift33 (xorShift33 (xorShift33 k * f1) * f2)

/-- `TailFold(h1, h2, BUF, FILL)` (R106; log 12). -/
def tailFold (h1 h2 : Word) (buf : BitVec 128) (fill : Nat) : Word × Word :=
  (if 0 < fill then h1 ^^^ mixk1 (loHalf buf) else h1, if 8 < fill then h2 ^^^ mixk2 (hiHalf buf) else h2)

/-- The eight finalization assignments of `HFIN` (R107), on the state the tail fold left. -/
def finalize (h1 h2 len : Word) : Word × Word :=
  let a1 := (h1 ^^^ len) + (h2 ^^^ len)
  let a2 := (h2 ^^^ len) + a1
  let b1 := fmix64 a1 + fmix64 a2
  (b1, fmix64 a2 + b1)

/-! ## Absorbing -/

/-- One turn of `HPUSH`'s loop (R104): a byte enters `BUF`; a full buffer goes through the block step and is cleared. -/
def absorbByte (s : State) (b : Byte) : State :=
  let buf := setByteLane s.buf s.fill.toNat b
  if s.fill.toNat + 1 = 16 then
    let h := blockStep s.h1 s.h2 (loHalf buf) (hiHalf buf)
    { s with h1 := h.1, h2 := h.2, buf := 0, fill := 0 }
  else { s with buf := buf, fill := s.fill + 1 }

/-- `HPUSH`'s loop over the bytes of a piece, first byte first (R104). -/
def absorb (s : State) (bytes : List Byte) : State := bytes.foldl absorbByte s

/-! ## Commands -/

/-- `HSTART seed`, `HSTART.B seed` (R101). -/
def execHstart (blkonly : Bool) (seed : BitVec 32) (s : State) : Result :=
  whenReady s (.next (answer
    { s with seed := seed, h1 := seedWord seed, h2 := seedWord seed, blkonly := blkonly
             len := 0, buf := 0, fill := 0, hact := true, dv := false } 0))

/-- `HPUSH n, bytes` (R104). A byte count outside 1 to 16 is no command but an illegal word (R75; log 9). -/
def execHpush (n : BitVec 8) (d : BitVec 128) (s : State) : Result :=
  let head := commandHead (.hpush n d)
  if n.toNat = 0 ∨ 16 < n.toNat then .next (illegalWord head s)
  else whenReady s <|
    if s.hact = false then .next (raise s .seq head)
    else if s.blkonly = true ∧ n.toNat ≠ 16 then .next (raise s .malformed head)
    else if 2 ^ 64 - 1 < s.len.toNat + n.toNat then .next (raise s .len head)
    else .next (answer { absorb s (pieceBytes n d) with len := s.len + n.setWidth 64 } 0)

/-- `HFIN` (R107): answers `{h2, h1}`. -/
def execHfin (s : State) : Result :=
  whenReady s <|
    if s.hact = false then .next (raise s .seq (commandHead .hfin))
    else
      let t := tailFold s.h1 s.h2 s.buf s.fill.toNat
      let h := finalize t.1 t.2 s.len
      .next (answer { s with h1 := h.1, h2 := h.2, buf := 0, fill := 0, hact := false, dv := true } (h.2 ++ h.1))

/-- `DLOAD h1, h2` (R108). -/
def execDload (h1 h2 : Word) (s : State) : Result :=
  whenReady s <|
    if s.hact = true then .next (raise s .seq (commandHead (.dload h1 h2)))
    else .next (answer { s with h1 := h1, h2 := h2, dv := true } 0)

/-! ## The hash as a function (R109), written from the message and not from the commands -/

/-- Block `q` of a message: `k1` is bytes `16q` to `16q + 7`, `k2` is bytes `16q + 8` to `16q + 15`, little-endian. -/
def messageBlock (b : List Byte) (q : Nat) : Word × Word :=
  (loHalf (packBytes ((b.drop (16 * q)).take 8)), loHalf (packBytes ((b.drop (16 * q + 8)).take 8)))

/-- The state after the first `n` blocks. -/
def hashBlocks (h : Word × Word) (b : List Byte) : Nat → Word × Word
  | 0 => h
  | n + 1 =>
    let g := hashBlocks h b n
    blockStep g.1 g.2 (messageBlock b n).1 (messageBlock b n).2

/-- `Hash(s, b)` (R109). -/
def hashMessage (seed : BitVec 32) (b : List Byte) : Word × Word :=
  let g := hashBlocks (seedWord seed, seedWord seed) b (b.length / 16)
  let t := tailFold g.1 g.2 (packBytes (b.drop (16 * (b.length / 16)))) (b.length % 16)
  finalize t.1 t.2 (BitVec.ofNat 64 b.length)

end Sys2Proof.Machine
end

