-- ==== Sys2Proof/Machine/System.lean ====
section
/-! DEFINITION. The system commands `RDREG` and `ERRCLR` (spec/44_system.md), the only ones accepted while faulted (R164). -/

namespace Sys2Proof.Machine

/-- `RDREG name` (R150). A reserved register number is no command but an illegal word (R75; log 9). -/
def execRdreg (rn : BitVec 8) (s : State) : Result :=
  match regOfNumber rn with
  | some name => .next (answer s ((regValue s name).setWidth 128))
  | none => .next (illegalWord (commandHead (.rdreg rn)) s)

/-- `ERRCLR` (R151). -/
def execErrclr (s : State) : Result := .next (answer (clearError s) 0)

end Sys2Proof.Machine
end

