-- ==== Sys2Proof/Machine/Dispatch.lean ====
section
/-! DEFINITION. The dispatch of a decoded command to its meaning. -/

namespace Sys2Proof.Machine

/-- What a command does (spec/30_encoding.md R72). -/
def exec (i : Instr) (s : State) : Host.Outcome State Fault Refusal :=
  match i with
  | .rdreg rn => Sys2Proof.Machine.execRdreg rn s
  | .errclr => Sys2Proof.Machine.execErrclr s
  | .bget idx => Sys2Proof.Machine.execBget idx s
  | .bset idx => Sys2Proof.Machine.execBset idx s
  | .hstart blkonly seed => Sys2Proof.Machine.execHstart blkonly seed s
  | .hpush n d => Sys2Proof.Machine.execHpush n d s
  | .hfin => Sys2Proof.Machine.execHfin s
  | .dload h1 h2 => Sys2Proof.Machine.execDload h1 h2 s
  | .derive i16 => Sys2Proof.Machine.execDerive i16 s
  | .cfg nbits k => Sys2Proof.Machine.execCfg nbits k s
  | .sealFilter => Sys2Proof.Machine.execSeal s
  | .train => Sys2Proof.Machine.execTrain s
  | .query null => Sys2Proof.Machine.execQuery null s

end Sys2Proof.Machine
end

