-- ==== Sys2Proof/Machine/Step.lean ====
section
/-! DEFINITION. One step: the host's next event, whole (spec/00_scope.md R12, spec/60_exceptions.md R162). -/

namespace Sys2Proof.Machine

/-- One command word on a state: a legal one is executed, another one is an illegal word. The faulted test of R162 stands
first in every meaning and in `illegalWord`. -/
def runWord (w : CommandWord) (s : State) : Host.Outcome State Fault Refusal :=
  match decode w with
  | .ok i => exec i s
  | .error _ => .next (illegalWord (headField w) s)

/-- One step of the machine: it takes the host's next event, a command word or the reset event, or waits. -/
def step (s : State) : Host.Outcome State Fault Refusal :=
  match nextEvent s with
  | none => .next (idle s)
  | some (.reset, t) => .next (takeReset t)
  | some (.command w, t) => runWord w t

/-- `s` with the table's word as the next command the host has sent (log 4). -/
def State.withFetchWord (s : State) (nbits w : Nat) : State :=
  { s with hostIn := .command (BitVec.ofNat 144 (w % 2 ^ nbits)) :: s.hostIn }

end Sys2Proof.Machine
end

