-- ==== Sys2Proof/Machine/Assembler.lean ====
section
/-! DEFINITION. The assembler syntax and the pseudo-commands, as abstract syntax with an expansion into commands
(spec/30_encoding.md R78, R79). -/

namespace Sys2Proof.Machine

/-- A line of R78 or a pseudo-command of R79. -/
inductive AsmLine where
  | rdreg (name : RegName)
  | errclr
  | bget (idx : Word)
  | bset (idx : Word)
  | hstart (seed : BitVec 32)
  /-- `HSTART.B`. -/
  | hstartB (seed : BitVec 32)
  /-- `HPUSH n, bytes`: the bytes in message order. -/
  | hpush (n : BitVec 8) (bytes : List Byte)
  | hfin
  | dload (h1 h2 : Word)
  | derive (i : BitVec 16)
  | cfg (nbits : Word) (k : BitVec 16)
  | sealFilter
  | train
  | query
  /-- `QUERY.NULL`. -/
  | queryNull
  /-- `HASH seed, bytes`. -/
  | hash (seed : BitVec 32) (bytes : List Byte)
  /-- `INSERT bytes`. -/
  | insert (bytes : List Byte)
  /-- `CONTAINS bytes`. -/
  | contains (bytes : List Byte)
  /-- `CONTAINS null`. -/
  | containsNull
  deriving DecidableEq, Repr

/-- A message cut into consecutive pieces of 16 bytes with a last piece of 1 to 16 (R79); `fuel` at least the number of pieces. -/
def cutPieces : Nat → List Byte → List (List Byte)
  | 0, _ => []
  | _ + 1, [] => []
  | fuel + 1, b :: bs => (b :: bs).take 16 :: cutPieces fuel ((b :: bs).drop 16)

/-- The `HPUSH` of a piece: its bytes in lanes 0 to `n - 1`, higher lanes zero (R78). -/
def pushPiece (piece : List Byte) : Instr := .hpush (BitVec.ofNat 8 piece.length) (packBytes piece)

/-- `HASH seed, bytes` (R79): no `HPUSH` at all for the empty message. -/
def hashCommands (seed : BitVec 32) (bytes : List Byte) : List Instr :=
  .hstart false seed :: ((cutPieces bytes.length bytes).map pushPiece ++ [.hfin])

/-- The commands a line stands for (R78, R79). -/
def expand : AsmLine → List Instr
  | .rdreg name => [.rdreg (regNumber name)]
  | .errclr => [.errclr]
  | .bget idx => [.bget idx]
  | .bset idx => [.bset idx]
  | .hstart seed => [.hstart false seed]
  | .hstartB seed => [.hstart true seed]
  | .hpush n bytes => [.hpush n (packBytes (bytes.take n.toNat))]
  | .hfin => [.hfin]
  | .dload h1 h2 => [.dload h1 h2]
  | .derive i => [.derive i]
  | .cfg nbits k => [.cfg nbits k]
  | .sealFilter => [.sealFilter]
  | .train => [.train]
  | .query => [.query false]
  | .queryNull => [.query true]
  | .hash seed bytes => hashCommands seed bytes
  | .insert bytes => hashCommands 0 bytes ++ [.train]
  | .contains bytes => hashCommands 0 bytes ++ [.query false]
  | .containsNull => [.query true]

end Sys2Proof.Machine
end

