-- ==== Sys2Proof/Safety.lean ====
section
/-! DEFINITION. The terms the statements use: the bits of the filter, the invariants of spec/10_state.md R41, what the host cannot
see of `MEM`, and runs of commands. -/

namespace Sys2Proof.Safety

open Sys2Proof.Machine

/-- Filter bit `j`: bit `j mod 64` of `MEM[j div 64]` (R39, R53). -/
def filterBit (s : State) (j : Nat) : Bool := (Memory.readWord s.mem (j / 64)).getLsbD (j % 64)

/-- The state with one response more and nothing else changed. -/
def answered (s : State) (st : BitVec 8) (r : BitVec 128) : State :=
  { s with hostOut := s.hostOut ++ [{ st := st, r := r }] }

/-- The state after an error (R163): `ERR`, `ERRCMD` and the response, and nothing else changed. -/
def raised (s : State) (code : BitVec 8) (op a : BitVec 8) : State :=
  { s with err := code, errcmd := op ++ a, hostOut := s.hostOut ++ [{ st := code, r := 0 }] }

/-- `RDREG` of a number answers a 64-bit value and changes nothing (R150). -/
def readAnswers (s : State) (rn : BitVec 8) (v : Word) : Prop :=
  exec (.rdreg rn) s = .next (answered s 0x00#8 (0#64 ++ v))

/-- The byte at an address of `MEM`'s cells. -/
def byteAt (s : State) (a : Nat) : Byte := Memory.readByte s.mem a

/-- Every response given between the two states has status `OK`. -/
def allOk (s t : State) : Prop := ∃ rs : List Response, t.hostOut = s.hostOut ++ rs ∧ ∀ r ∈ rs, r.st = 0x00#8

/-- The invariants of R41 (items 1 to 7), R23 and R35, with the canonical form of `MEM`. -/
structure Inv (s : State) : Prop where
  /-- R41 item 2. -/
  unconf_iff : s.fphase = .unconf ↔ s.nbits = 0
  /-- R35: in UNCONF all three sizing registers are 0. -/
  unconf_sizing : s.fphase = .unconf → s.k = 0 ∧ s.awords = 0
  /-- R41 item 3, R35. -/
  sizing : s.fphase ≠ .unconf →
    s.awords.toNat = allocWords s.nbits ∧ s.awords.toNat ≤ s.inst.nwords.toNat ∧
      1 ≤ s.k.toNat ∧ s.k.toNat ≤ s.inst.kMax.toNat
  /-- R41 item 3. -/
  indices : s.fphase ≠ .unconf → s.idx.toNat < s.nbits.toNat ∧ s.probes.toNat ≤ s.k.toNat
  /-- R41 item 4, R23. -/
  tail : ∀ j, s.fill.toNat ≤ j → j < 16 → byteLane s.buf j = 0
  /-- R41 item 4. -/
  noMessage : s.hact = false → s.fill = 0 ∧ s.buf = 0
  /-- R41 items 5 and 6. -/
  message : s.hact = true → s.fill.toNat = s.len.toNat % 16 ∧ s.dv = false
  /-- R41 item 5. -/
  rawBlocks : s.hact = true → s.blkonly = true → s.fill = 0
  /-- R41 item 7. -/
  errCodes : s.err.toNat ≤ 8
  /-- R41 item 7. -/
  errcmdZero : s.err = 0 → s.errcmd = 0
  /-- The canonical form of the memory list. -/
  memForm : Memory.wf s.mem = true
  /-- `MEM` has `NWORDS` words (R39). -/
  memSize : Memory.within s.mem s.inst.nwords.toNat = true

/-- Two states the host cannot tell apart: everything is equal but words of `MEM` that no command reads, all of them while no
filter exists, those at and above `AWORDS` otherwise (R42, R58, U11, U12). -/
structure SameVisible (s t : State) : Prop where
  others : { t with mem := s.mem } = s
  words : s.fphase ≠ .unconf → ∀ w, w < s.awords.toNat → Memory.readWord s.mem w = Memory.readWord t.mem w

/-- A list of commands, one after the other, up to the first fault or refusal (R60). -/
def runCommands : List Instr → State → Result
  | [], s => .next s
  | i :: is, s =>
    match exec i s with
    | .next t => runCommands is t
    | .fault f => .fault f
    | .refused r => .refused r

/-- `n` steps. -/
def runSteps : Nat → State → Result
  | 0, s => .next s
  | n + 1, s =>
    match step s with
    | .next t => runSteps n t
    | .fault f => .fault f
    | .refused r => .refused r

/-- Whether a command is a `CFG`: the only one that can clear a bit of `MEM` (R93). -/
def isCfg : Instr → Bool
  | .cfg _ _ => true
  | _ => false

/-- Whether a command's rule answers result data: every other one answers `r = 0` (R71). -/
def answersData : Instr → Bool
  | .rdreg _ => true
  | .bget _ => true
  | .hfin => true
  | .derive _ => true
  | .cfg _ _ => true
  | .query null => !null
  | .errclr => false
  | .bset _ => false
  | .hstart _ _ => false
  | .hpush _ _ => false
  | .dload _ _ => false
  | .sealFilter => false
  | .train => false

/-- Whether a command is accepted while the core is faulted (R164). -/
def acceptedWhileFaulted : Instr → Bool
  | .rdreg rn => decide (rn.toNat ≤ 0x0F)
  | .errclr => true
  | _ => false

/-- The index `Derive` gives iteration `i` for the digest and the sizing the state holds (R120). -/
def indexOf (s : State) (i : Nat) : Word :=
  deriveValue s.inst.absMin s.h1 s.h2 s.k s.nbits (BitVec.ofNat 16 i)

/-- `j` is one of the first `n` indices derived. -/
def isIndexBelow (s : State) (n j : Nat) : Prop := ∃ i, i < n ∧ (indexOf s i).toNat = j

end Sys2Proof.Safety
end

