-- ==== Sys2Proof/Certificates/Slice0/Obligations.lean ====
section
/-! DEFINITION. The statements for the provers, from the numbered rules of spec/. -/

open Sys2Proof Sys2Proof.Machine Sys2Proof.Safety

/-! ## Encoding (spec/30_encoding.md) -/

/-- R73, R74: decoding the word of a well-formed command gives the command back, every operand at every value.
For the ignored lanes of an `HPUSH` this too rests on the model's choice in log 14. -/
def Obligations.DecodeOfEncodeIsTheCommand : Prop :=
  ∀ i : Instr, wellFormed i = true → decode (encode i) = .ok i

/-- R73, R75: a legal word has one meaning: it is the encoding of the command it decodes to, which is well formed. For
`HPUSH` the equation holds bit for bit because of the model's choice in log 14 (DESIGN CHOICE): a decoded `HPUSH` keeps its
ignored lanes. R75 does not force it. -/
def Obligations.EncodeOfDecodeIsTheWord : Prop :=
  ∀ (w : CommandWord) (i : Instr), decode w = .ok i → encode i = w ∧ wellFormed i = true

/-- R73: the words a row of the table admits are the legal encodings of the row's command, and what is in the other
bits of a legal word are the operands R73 names. -/
def Obligations.LegalWordsAreThoseOfTheTable : Prop :=
  (∀ (w : CommandWord) (r : EncodingRow), r ∈ encodingTable →
    (r.admits w = true ↔ ∃ i, decode w = .ok i ∧ mnemonic i = r.mnemonic)) ∧
  (∀ (w : CommandWord) (i : Instr), decode w = .ok i → ∃ r ∈ encodingTable, r.mnemonic = mnemonic i) ∧
  (∀ w rn, decode w = .ok (.rdreg rn) → rn = w.extractLsb' 128 8) ∧
  (∀ w idx, decode w = .ok (.bget idx) → idx = w.extractLsb' 0 64) ∧
  (∀ w idx, decode w = .ok (.bset idx) → idx = w.extractLsb' 0 64) ∧
  (∀ w b seed, decode w = .ok (.hstart b seed) → b = w.getLsbD 128 ∧ seed = w.extractLsb' 0 32) ∧
  (∀ w n d, decode w = .ok (.hpush n d) →
    n = w.extractLsb' 128 8 ∧ ∀ j, j < n.toNat → byteLane d j = w.extractLsb' (8 * j) 8) ∧
  (∀ w h1 h2, decode w = .ok (.dload h1 h2) → h1 = w.extractLsb' 0 64 ∧ h2 = w.extractLsb' 64 64) ∧
  (∀ w i, decode w = .ok (.derive i) → i = w.extractLsb' 0 16) ∧
  (∀ w nbits k, decode w = .ok (.cfg nbits k) → nbits = w.extractLsb' 0 64 ∧ k = w.extractLsb' 64 16) ∧
  (∀ w b, decode w = .ok (.query b) → b = w.getLsbD 128)

/-- R70, R73: words written out in the spec's own examples decode to the commands they stand for. -/
def Obligations.SpecWordsDecode : Prop :=
  decode 0x310500000000000000000000006F6C6C6568#144 = .ok (.hpush 5#8 0x6F6C6C6568#128) ∧
  decode 0x500000000000000000030000000000000064#144 = .ok (.cfg 100#64 3#16) ∧
  decode 0x330000000000000000020000000000000001#144 = .ok (.dload 1#64 2#64) ∧
  decode 0x30010000000000000000000000009747B28C#144 = .ok (.hstart true 0x9747B28C#32) ∧
  decode 0x200000000000000000000000000000000063#144 = .ok (.bget 99#64) ∧
  decode 0x530100000000000000000000000000000000#144 = .ok (.query true) ∧
  decode 0x101000000000000000000000000000000000#144 = .error .reservedRegister ∧
  decode 0x311100000000000000000000000000000000#144 = .error .badByteCount ∧
  decode 0x000000000000000000000000000000000000#144 = .error .reservedOpcode

/-- R75: the lanes of an `HPUSH` at and above `n` are ignored. -/
def Obligations.LanesAtAndAboveCountAreIgnored : Prop :=
  ∀ (n : BitVec 8) (d d' : BitVec 128) (s : State),
    (∀ j, j < n.toNat → byteLane d j = byteLane d' j) → exec (.hpush n d) s = exec (.hpush n d') s

/-- R79: the pieces of a message are 1 to 16 bytes each, all but the last 16, and give the message back. -/
def Obligations.PiecesRejoinToTheMessage : Prop :=
  ∀ (b : List Byte),
    (cutPieces b.length b).flatten = b ∧
    (∀ p ∈ cutPieces b.length b, 1 ≤ p.length ∧ p.length ≤ 16) ∧
    (∀ p ∈ (cutPieces b.length b).dropLast, p.length = 16)

/-! ## The step -/

/-- R60, R162: a legal command word that the host has sent is executed as the command it decodes to; the step takes
the word from what the host has sent and adds nothing else (log 4). -/
def Obligations.StepRunsTheDecodedCommand : Prop :=
  ∀ (s : State) (w : CommandWord) (rest : List HostEvent) (i : Instr),
    s.hostIn = .command w :: rest → decode w = .ok i → step s = exec i { s with hostIn := rest }

/-- R73, R75: for every command, well formed or not, the step on its encoded word is the command's meaning (for an
ill-formed term the meaning is that of an illegal word: the model's choice, log 9). -/
def Obligations.StepOnEncodedWordIsExec : Prop :=
  ∀ (s : State) (rest : List HostEvent) (i : Instr),
    s.hostIn = .command (encode i) :: rest → step s = exec i { s with hostIn := rest }

/-- R75, R163: an illegal word raises `E_ILLEGAL`, recording the word's own `{op, a}`, and does nothing else. -/
def Obligations.IllegalWordRaisesIllegal : Prop :=
  ∀ (s : State) (w : CommandWord) (rest : List HostEvent) (e : DecodeReject),
    s.hostIn = .command w :: rest → decode w = .error e → s.err = 0 →
      step s = .next (raised { s with hostIn := rest } 0x01#8 (opField w) (aField w))

/-- R175, R191: with nothing sent the core holds its state. The queue is the model's own (log 4). -/
def Obligations.StepWithNothingSentHoldsTheState : Prop :=
  ∀ s : State, s.hostIn = [] → step s = .next s

/-- R190, R42: the reset event brings every element but `MEM` to zero from any state. `MEM` is left at some memory in
canonical form (the free value of log 6); what the host has sent and was answered stays (log 4, log 5). -/
def Obligations.ResetEventZeroesEveryElement : Prop :=
  ∀ (s : State) (rest : List HostEvent), s.hostIn = .reset :: rest →
    ∃ m : Memory, Memory.wf m = true ∧ Memory.within m s.inst.nwords.toNat = true ∧
      step s = .next
        { h1 := 0, h2 := 0, len := 0, buf := 0, fill := 0, seed := 0, idx := 0, probes := 0, result := false
          nbits := 0, k := 0, awords := 0, fphase := .unconf, hact := false, dv := false, blkonly := false
          err := 0, errcmd := 0, mem := m
          inst := s.inst, hostIn := rest, hostOut := s.hostOut, draws := s.draws + 1 }

/-- R42: the values of every element but `MEM` in the state after reset. -/
def Obligations.ResetStateIsZero : Prop :=
  State.reset.h1 = 0 ∧ State.reset.h2 = 0 ∧ State.reset.len = 0 ∧ State.reset.buf = 0 ∧ State.reset.fill = 0 ∧
  State.reset.seed = 0 ∧ State.reset.idx = 0 ∧ State.reset.probes = 0 ∧ State.reset.result = false ∧
  State.reset.nbits = 0 ∧ State.reset.k = 0 ∧ State.reset.awords = 0 ∧ State.reset.fphase = .unconf ∧
  State.reset.hact = false ∧ State.reset.dv = false ∧ State.reset.blkonly = false ∧ State.reset.err = 0 ∧
  State.reset.errcmd = 0

/-! ## System commands (spec/44_system.md) -/

/-- R150: in every state, faulted or not, `RDREG` answers the register of its number zero-extended and writes nothing.
The last clause, a reserved number given to `exec`, is the model's choice (log 9, DEDUCED): such a term never comes out of
`decode`, and it does what its illegal word does (R75), refused while faulted and `E_ILLEGAL` otherwise. -/
def Obligations.RdregAnswersEachRegister : Prop :=
  ∀ s : State,
    readAnswers s 0x00#8 0x000000014D483342#64 ∧
    readAnswers s 0x01#8 (paramWord s.inst) ∧
    readAnswers s 0x02#8 (statusWord s) ∧
    readAnswers s 0x03#8 (0#56 ++ s.err) ∧
    readAnswers s 0x04#8 (0#48 ++ s.errcmd) ∧
    readAnswers s 0x05#8 s.nbits ∧
    readAnswers s 0x06#8 (0#48 ++ s.k) ∧
    readAnswers s 0x07#8 (0#32 ++ s.awords) ∧
    readAnswers s 0x08#8 (0#32 ++ s.seed) ∧
    readAnswers s 0x09#8 s.h1 ∧
    readAnswers s 0x0A#8 s.h2 ∧
    readAnswers s 0x0B#8 s.len ∧
    readAnswers s 0x0C#8 (s.buf.extractLsb' 0 64) ∧
    readAnswers s 0x0D#8 (s.buf.extractLsb' 64 64) ∧
    readAnswers s 0x0E#8 s.idx ∧
    readAnswers s 0x0F#8 (0#48 ++ s.probes) ∧
    (∀ rn : BitVec 8, 0x0F < rn.toNat →
      exec (.rdreg rn) s = .next (if s.err = 0 then raised s 0x01#8 0x10#8 rn else answered s 0x7F#8 0))

/-- R37: every field of `STATUS`. -/
def Obligations.StatusPacksTheFlags : Prop :=
  ∀ s : State,
    (statusWord s).extractLsb' 0 2 = phaseCode s.fphase ∧
    (statusWord s).getLsbD 2 = s.hact ∧
    (statusWord s).getLsbD 3 = s.dv ∧
    (statusWord s).getLsbD 4 = s.blkonly ∧
    (statusWord s).extractLsb' 5 4 = s.fill ∧
    (statusWord s).getLsbD 9 = s.result ∧
    (statusWord s).getLsbD 10 = decide (s.err ≠ 0) ∧
    (statusWord s).extractLsb' 11 53 = 0#53 ∧
    phaseCode .unconf = 0#2 ∧ phaseCode .training = 1#2 ∧ phaseCode .sealed = 2#2

/-- R34: every field of `PARAM`, and its value on the reference instance. The last conjunct is the model's choice (log 3,
DESIGN CHOICE): the parameters of R14, `ABSMIN_MAGIC` among them, stand in a field `inst` of State, and no step changes it. -/
def Obligations.ParamPacksTheInstance : Prop :=
  (∀ c : Config.Instance,
    (paramWord c).extractLsb' 0 32 = c.nwords ∧ (paramWord c).extractLsb' 32 16 = c.kMax ∧
    (paramWord c).extractLsb' 48 8 = 0x40#8 ∧ (paramWord c).extractLsb' 56 8 = 0#8) ∧
  paramWord Config.reference = 0x0040004000000400#64 ∧
  (∀ s t : State, step s = .next t → t.inst = s.inst)

/-- R151: in every state `ERRCLR` clears `ERR` and `ERRCMD`, answers 0, and changes nothing else. -/
def Obligations.ErrclrClearsTheError : Prop :=
  ∀ s : State, exec .errclr s =
    .next { s with err := 0, errcmd := 0, hostOut := s.hostOut ++ [{ st := 0x00#8, r := 0 }] }

/-! ## Packed bit array (spec/40_bitset.md) -/

/-- R91: where it is allowed, `BGET` answers the bit and changes nothing. -/
def Obligations.BgetAnswersTheBit : Prop :=
  ∀ (s : State) (idx : Word), Inv s → s.err = 0 → s.fphase ≠ .unconf → idx.toNat < 64 * s.awords.toNat →
    exec (.bget idx) s = .next (answered s 0x00#8 (if filterBit s idx.toNat then 1#128 else 0#128))

/-- R92: where it is allowed, `BSET` sets its bit; every other bit, every byte outside its word and every other element
is unchanged. -/
def Obligations.BsetSetsTheBitAndNothingElse : Prop :=
  ∀ (s : State) (idx : Word), Inv s → s.err = 0 → s.fphase = .training → idx.toNat < 64 * s.awords.toNat →
    ∃ m : Memory,
      exec (.bset idx) s =
        .next { s with mem := m, hostOut := s.hostOut ++ [{ st := 0x00#8, r := 0 }] } ∧
      (∀ j, filterBit { s with mem := m } j = (decide (j = idx.toNat) || filterBit s j)) ∧
      (∀ a, ¬ (8 * wordIndex idx ≤ a ∧ a < 8 * wordIndex idx + 8) → Memory.readByte m a = byteAt s a)

/-- R91, R92, R161: the errors of `BGET` and `BSET`, in their order. -/
def Obligations.BitCommandErrors : Prop :=
  ∀ (s : State) (idx : Word), s.err = 0 →
    (s.fphase = .unconf →
      exec (.bget idx) s = .next (raised s 0x02#8 0x20#8 0#8) ∧
      exec (.bset idx) s = .next (raised s 0x02#8 0x21#8 0#8)) ∧
    (s.fphase = .sealed → exec (.bset idx) s = .next (raised s 0x06#8 0x21#8 0#8)) ∧
    (64 * s.awords.toNat ≤ idx.toNat →
      (s.fphase ≠ .unconf → exec (.bget idx) s = .next (raised s 0x07#8 0x20#8 0#8)) ∧
      (s.fphase = .training → exec (.bset idx) s = .next (raised s 0x07#8 0x21#8 0#8)))

/-- R93: independence, accumulation, monotonicity, initial value, and which commands set a bit. -/
def Obligations.BitLaws : Prop :=
  (∀ (s t : State) (i : Word) (j : Nat), exec (.bset i) s = .next t → j ≠ i.toNat → filterBit t j = filterBit s j) ∧
  (∀ (s t u : State) (i j : Word), exec (.bset i) s = .next t → exec (.bset j) t = .next u → u.err = 0 →
    filterBit u i.toNat = true ∧ filterBit u j.toNat = true) ∧
  (∀ (c : Instr) (s t : State) (j : Nat), isCfg c = false → exec c s = .next t → filterBit s j = true →
    filterBit t j = true) ∧
  (∀ (s t : State) (nbits : Word) (k : BitVec 16) (j : Nat), exec (.cfg nbits k) s = .next t → t.err = 0 →
    j < 64 * t.awords.toNat → filterBit t j = false) ∧
  (∀ (c : Instr) (s t : State) (j : Nat), isCfg c = false → exec c s = .next t → filterBit s j = false →
    filterBit t j = true →
      (∃ i, c = .bset i ∧ i.toNat = j) ∨ (c = .train ∧ isIndexBelow s s.k.toNat j))

/-! ## Hash engine (spec/41_hash.md) -/

/-- R10: `rotl64` moves bit `i` to bit `(i + r) mod 64`. -/
def Obligations.RotateMovesEachBit : Prop :=
  ∀ (x : Word) (r i : Nat), 1 ≤ r → r ≤ 63 → i < 64 → (rotl64 x r).getLsbD ((i + r) % 64) = x.getLsbD i

/-- R102: the two key mixers, with the spec's check values. -/
def Obligations.KeyMixers : Prop :=
  (∀ k : Word,
    mixk1 k = (k * 0x87c37b91114253d5#64).rotateLeft 31 * 0x4cf5ad432745937f#64 ∧
    mixk2 k = (k * 0x4cf5ad432745937f#64).rotateLeft 33 * 0x87c37b91114253d5#64) ∧
  mixk1 0 = 0 ∧ mixk2 0 = 0 ∧ mixk1 1 = 0x34e09d0b6bdefe38#64 ∧ mixk2 1 = 0x4e26f5539bb7c37e#64

/-- R103: the block step, with the spec's check values. -/
def Obligations.BlockStepAssignments : Prop :=
  (∀ h1 h2 k1 k2 : Word,
    (blockStep h1 h2 k1 k2).1 = ((h1 ^^^ mixk1 k1).rotateLeft 27 + h2) * 5#64 + 0x52dce729#64 ∧
    (blockStep h1 h2 k1 k2).2 =
      ((h2 ^^^ mixk2 k2).rotateLeft 31 + (blockStep h1 h2 k1 k2).1) * 5#64 + 0x38495ab5#64) ∧
  blockStep 0 0 0 0 = (0x0000000052dce729#64, 0x00000001d699de82#64) ∧
  blockStep 0 0 1 0 = (0xc8dad7b91b1fffb1#64, 0xec46369dbfe9592a#64) ∧
  blockStep 0 0 0 1 = (0x0000000052dce729#64, 0x054b68bd99fb43cf#64) ∧
  blockStep 1 2 3 4 = (0xecb36636509b245c#64, 0x5fd47396d5f3b783#64)

/-- R105: the final mixer, its shifts as unsigned division, with the spec's check values. -/
def Obligations.FinalMixer : Prop :=
  (∀ k : Word, ∃ a b c d : Word,
    a = k ^^^ BitVec.ofNat 64 (k.toNat / 2 ^ 33) ∧
    b = a * 0xff51afd7ed558ccd#64 ∧
    c = b ^^^ BitVec.ofNat 64 (b.toNat / 2 ^ 33) ∧
    d = c * 0xc4ceb9fe1a85ec53#64 ∧
    fmix64 k = d ^^^ BitVec.ofNat 64 (d.toNat / 2 ^ 33)) ∧
  fmix64 0 = 0 ∧ fmix64 1 = 0xb456bcfc34c2cb2c#64 ∧ fmix64 0xffffffffffffffff#64 = 0x64b5720b4b825f21#64 ∧
  fmix64 0x8000000000000000#64 = 0x8f780810af31a493#64

/-- R106: the fold of a tail of 0 to 15 bytes, with its conditions dropped: bytes 0 to 7 little-endian into `h1`, bytes
8 on into `h2`. -/
def Obligations.TailFoldOfTheTailBytes : Prop :=
  ∀ (h1 h2 : Word) (t : List Byte), t.length ≤ 15 →
    tailFold h1 h2 (packBytes t) t.length =
      (h1 ^^^ mixk1 (loHalf (packBytes (t.take 8))), h2 ^^^ mixk2 (loHalf (packBytes (t.drop 8))))

/-- R101: in every state that is not faulted `HSTART` begins a message, the seed zero-extended, and leaves the filter alone. -/
def Obligations.HstartBeginsAMessage : Prop :=
  ∀ (s : State) (blkonly : Bool) (seed : BitVec 32), s.err = 0 →
    exec (.hstart blkonly seed) s = .next
      { s with seed := seed, h1 := 0#32 ++ seed, h2 := 0#32 ++ seed, blkonly := blkonly, len := 0, buf := 0, fill := 0
               hact := true, dv := false, hostOut := s.hostOut ++ [{ st := 0x00#8, r := 0 }] }

/-- R104: where it is allowed, `HPUSH` appends its bytes to the buffer; a buffer that fills goes through one block step
and the rest of the piece stays, zero-padded. -/
def Obligations.HpushAbsorbsTheBytes : Prop :=
  ∀ (s : State) (n : BitVec 8) (d : BitVec 128), s.err = 0 → s.hact = true → 1 ≤ n.toNat → n.toNat ≤ 16 →
    (s.blkonly = true → n.toNat = 16) → s.len.toNat + n.toNat ≤ 2 ^ 64 - 1 →
    ∃ (h1 h2 : Word) (buf : BitVec 128) (fill : BitVec 4),
      exec (.hpush n d) s = .next
        { s with h1 := h1, h2 := h2, buf := buf, fill := fill, len := BitVec.ofNat 64 (s.len.toNat + n.toNat)
                 hostOut := s.hostOut ++ [{ st := 0x00#8, r := 0 }] } ∧
      (s.fill.toNat + n.toNat < 16 →
        h1 = s.h1 ∧ h2 = s.h2 ∧ fill.toNat = s.fill.toNat + n.toNat ∧
        ∀ j, j < 16 → byteLane buf j =
          if s.fill.toNat ≤ j ∧ j < s.fill.toNat + n.toNat then byteLane d (j - s.fill.toNat) else byteLane s.buf j) ∧
      (16 ≤ s.fill.toNat + n.toNat →
        (∃ full : BitVec 128,
          (∀ j, j < 16 → byteLane full j =
            if j < s.fill.toNat then byteLane s.buf j else byteLane d (j - s.fill.toNat)) ∧
          (h1, h2) = blockStep s.h1 s.h2 (full.extractLsb' 0 64) (full.extractLsb' 64 64)) ∧
        fill.toNat = s.fill.toNat + n.toNat - 16 ∧
        ∀ j, j < 16 → byteLane buf j =
          if j < s.fill.toNat + n.toNat - 16 then byteLane d (16 - s.fill.toNat + j) else 0#8)

/-- R107: while a message is active `HFIN` folds the tail, runs the eight assignments and answers `{h2, h1}`. -/
def Obligations.HfinProducesTheDigest : Prop :=
  ∀ s : State, s.err = 0 → s.hact = true →
    ∃ t1 t2 a1 a2 b1 b2 : Word,
      t1 = (if 0 < s.fill.toNat then s.h1 ^^^ mixk1 (s.buf.extractLsb' 0 64) else s.h1) ∧
      t2 = (if 8 < s.fill.toNat then s.h2 ^^^ mixk2 (s.buf.extractLsb' 64 64) else s.h2) ∧
      a1 = (t1 ^^^ s.len) + (t2 ^^^ s.len) ∧
      a2 = (t2 ^^^ s.len) + a1 ∧
      b1 = fmix64 a1 + fmix64 a2 ∧
      b2 = fmix64 a2 + b1 ∧
      exec .hfin s = .next
        { s with h1 := b1, h2 := b2, buf := 0, fill := 0, hact := false, dv := true
                 hostOut := s.hostOut ++ [{ st := 0x00#8, r := b2 ++ b1 }] }

/-- R108: while no message is active `DLOAD` loads the digest. -/
def Obligations.DloadLoadsTheDigest : Prop :=
  ∀ (s : State) (h1 h2 : Word), s.err = 0 → s.hact = false →
    exec (.dload h1 h2) s = .next
      { s with h1 := h1, h2 := h2, dv := true, hostOut := s.hostOut ++ [{ st := 0x00#8, r := 0 }] }

/-- R104, R107, R108, R161: the errors of the hash commands, in their order. -/
def Obligations.HashCommandErrors : Prop :=
  ∀ s : State, s.err = 0 →
    (s.hact = false →
      (∀ (n : BitVec 8) (d : BitVec 128), 1 ≤ n.toNat → n.toNat ≤ 16 →
        exec (.hpush n d) s = .next (raised s 0x02#8 0x31#8 n)) ∧
      exec .hfin s = .next (raised s 0x02#8 0x32#8 0#8)) ∧
    (s.hact = true →
      (∀ (n : BitVec 8) (d : BitVec 128), 1 ≤ n.toNat → n.toNat < 16 → s.blkonly = true →
        exec (.hpush n d) s = .next (raised s 0x05#8 0x31#8 n)) ∧
      (∀ (n : BitVec 8) (d : BitVec 128), 1 ≤ n.toNat → n.toNat ≤ 16 → (s.blkonly = true → n.toNat = 16) →
        2 ^ 64 - 1 < s.len.toNat + n.toNat → exec (.hpush n d) s = .next (raised s 0x08#8 0x31#8 n)) ∧
      (∀ h1 h2 : Word, exec (.dload h1 h2) s = .next (raised s 0x02#8 0x33#8 0#8)))

/-- R109: a message started, pushed in any pieces and finished leaves and answers the hash of seed and bytes, and leaves
the filter alone. -/
def Obligations.HashCommandsComputeTheHash : Prop :=
  ∀ (seed : BitVec 32) (blkonly : Bool) (pieces : List (List Byte)) (s : State), s.err = 0 →
    (∀ p ∈ pieces, 1 ≤ p.length ∧ p.length ≤ 16) → (blkonly = true → ∀ p ∈ pieces, p.length = 16) →
    pieces.flatten.length ≤ 2 ^ 64 - 1 →
    ∃ t : State,
      runCommands (.hstart blkonly seed :: (pieces.map pushPiece ++ [.hfin])) s = .next t ∧
      (t.h1, t.h2) = hashMessage seed pieces.flatten ∧
      t.hostOut = s.hostOut ++ List.replicate (pieces.length + 1) { st := 0x00#8, r := 0 } ++
        [{ st := 0x00#8, r := (hashMessage seed pieces.flatten).2 ++ (hashMessage seed pieces.flatten).1 }] ∧
      t = { s with h1 := t.h1, h2 := t.h2, len := BitVec.ofNat 64 pieces.flatten.length, seed := seed
                   blkonly := blkonly, buf := 0, fill := 0, hact := false, dv := true, hostOut := t.hostOut }

/-- R110: the empty message with seed 1 and the message `00` with seed 0 share a digest. -/
def Obligations.BuiltInCollision : Prop :=
  hashMessage 1#32 [] = (0x4610abe56eff5cb5#64, 0x51622daa78f83583#64) ∧
  hashMessage 0#32 [0x00#8] = (0x4610abe56eff5cb5#64, 0x51622daa78f83583#64)

/-! ## Deriver (spec/42_deriver.md) -/

/-- R120: the derived index in integer arithmetic, for both values of `ABSMIN_MAGIC`. -/
def Obligations.DerivedIndexInIntegers : Prop :=
  ∀ (am : Config.AbsMin) (h1 h2 m : Word) (k i : BitVec 16), i.toNat < k.toNat → 1 ≤ m.toNat →
    ∃ t : Word, ∃ magic : Nat,
      t.toNat = ((k.toNat - i.toNat) * h1.toNat + i.toNat * h2.toNat) % 2 ^ 64 ∧
      (0 ≤ t.toInt → (magic : Int) = t.toInt) ∧
      (-(2 ^ 63) < t.toInt → t.toInt < 0 → (magic : Int) = -t.toInt) ∧
      (t.toInt = -(2 ^ 63) → magic = match am with
        | .negationAsItself => 2 ^ 63
        | .saturate => 2 ^ 63 - 1) ∧
      (deriveValue am h1 h2 k m i).toNat = magic % m.toNat

/-- R122: every derived index is a filter bit, below the headroom word; with `m = 1`, or with a zero digest, it is 0. -/
def Obligations.DerivedIndexIsAFilterBit : Prop :=
  ∀ (am : Config.AbsMin) (h1 h2 m : Word) (k i : BitVec 16), 1 ≤ m.toNat →
    (deriveValue am h1 h2 k m i).toNat < m.toNat ∧
    wordIndex (deriveValue am h1 h2 k m i) + 1 ≤ (m.toNat + 63) / 64 ∧
    wordIndex (deriveValue am h1 h2 k m i) + 1 < allocWords m ∧
    (m = 1 → deriveValue am h1 h2 k m i = 0) ∧
    (h1 = 0 → h2 = 0 → deriveValue am h1 h2 k m i = 0)

/-- R121: where it is allowed, `DERIVE` answers the index and keeps it in `IDX`; nothing else changes. -/
def Obligations.DeriveAnswersTheIndex : Prop :=
  ∀ (s : State) (i : BitVec 16), Inv s → s.err = 0 → s.fphase ≠ .unconf → s.dv = true → i.toNat < s.k.toNat →
    exec (.derive i) s = .next
      { s with idx := deriveValue s.inst.absMin s.h1 s.h2 s.k s.nbits i
               hostOut := s.hostOut ++ [{ st := 0x00#8, r := 0#64 ++ deriveValue s.inst.absMin s.h1 s.h2 s.k s.nbits i }] }

/-- R121, R161: the errors of `DERIVE`, in their order. -/
def Obligations.DeriveErrors : Prop :=
  ∀ (s : State) (i : BitVec 16), s.err = 0 →
    (s.fphase = .unconf → exec (.derive i) s = .next (raised s 0x02#8 0x40#8 0#8)) ∧
    (s.fphase ≠ .unconf → s.dv = false → exec (.derive i) s = .next (raised s 0x02#8 0x40#8 0#8)) ∧
    (s.fphase ≠ .unconf → s.dv = true → s.k.toNat ≤ i.toNat →
      exec (.derive i) s = .next (raised s 0x07#8 0x40#8 0#8))

/-! ## Filter (spec/43_filter.md) -/

/-- R131: a `CFG` whose operands the instance can hold makes an empty filter, from any phase and with any message active:
the allocated words read zero, no other byte and no hash element changes. -/
def Obligations.CfgMakesAnEmptyFilter : Prop :=
  ∀ (s : State) (nbits : Word) (k : BitVec 16), s.err = 0 → 1 ≤ nbits.toNat →
    (nbits.toNat + 63) / 64 + 1 ≤ s.inst.nwords.toNat → 1 ≤ k.toNat → k.toNat ≤ s.inst.kMax.toNat →
    ∃ m : Memory,
      exec (.cfg nbits k) s = .next
        { s with nbits := nbits, k := k, awords := BitVec.ofNat 32 ((nbits.toNat + 63) / 64 + 1), mem := m
                 fphase := .training, result := false, probes := 0, idx := 0
                 hostOut := s.hostOut ++ [{ st := 0x00#8, r := BitVec.ofNat 128 ((nbits.toNat + 63) / 64 + 1) }] } ∧
      (∀ a, a < 8 * ((nbits.toNat + 63) / 64 + 1) → Memory.readByte m a = 0#8) ∧
      (∀ a, 8 * ((nbits.toNat + 63) / 64 + 1) ≤ a → Memory.readByte m a = byteAt s a)

/-- R132: in TRAINING `SEAL` moves to SEALED and changes nothing else. -/
def Obligations.SealEndsConstruction : Prop :=
  ∀ s : State, s.err = 0 → s.fphase = .training →
    exec .sealFilter s = .next
      { s with fphase := .sealed, hostOut := s.hostOut ++ [{ st := 0x00#8, r := 0 }] }

/-- R133: where it is allowed, `TRAIN` sets the K derived bits and no other, leaves `IDX` at the last index, and touches
no byte outside the words of those bits and no other element. -/
def Obligations.TrainSetsTheDerivedBits : Prop :=
  ∀ s : State, Inv s → s.err = 0 → s.fphase = .training → s.dv = true →
    ∃ m : Memory,
      exec .train s = .next
        { s with mem := m, idx := indexOf s (s.k.toNat - 1), hostOut := s.hostOut ++ [{ st := 0x00#8, r := 0 }] } ∧
      (∀ j, filterBit { s with mem := m } j = true ↔ filterBit s j = true ∨ isIndexBelow s s.k.toNat j) ∧
      (∀ a, (∀ i, i < s.k.toNat →
          ¬ (8 * wordIndex (indexOf s i) ≤ a ∧ a < 8 * wordIndex (indexOf s i) + 8)) →
        Memory.readByte m a = byteAt s a)

/-- R134: on a configured filter `QUERY.NULL` answers 0 whatever the digest and the memory, and keeps `IDX`. -/
def Obligations.QueryNullAnswersAbsent : Prop :=
  ∀ s : State, s.err = 0 → s.fphase ≠ .unconf →
    exec (.query true) s = .next
      { s with result := false, probes := 0, hostOut := s.hostOut ++ [{ st := 0x00#8, r := 0 }] }

/-- R134: a plain `QUERY` that finds all K bits set hits: `PROBES = K`, `IDX` the last index. -/
def Obligations.QueryHitsWhenAllBitsAreSet : Prop :=
  ∀ s : State, Inv s → s.err = 0 → s.fphase ≠ .unconf → s.dv = true →
    (∀ i, i < s.k.toNat → filterBit s (indexOf s i).toNat = true) →
    exec (.query false) s = .next
      { s with result := true, probes := s.k, idx := indexOf s (s.k.toNat - 1)
               hostOut := s.hostOut ++
                 [{ st := 0x00#8, r := indexOf s (s.k.toNat - 1) ++ (0#32 ++ (s.k ++ (0#15 ++ 1#1))) }] }

/-- R134: a plain `QUERY` stops at the first unset bit: `PROBES` counts the tests made, `IDX` is the unset index. -/
def Obligations.QueryMissesAtTheFirstUnsetBit : Prop :=
  ∀ (s : State) (n : Nat), Inv s → s.err = 0 → s.fphase ≠ .unconf → s.dv = true → n < s.k.toNat →
    (∀ i, i < n → filterBit s (indexOf s i).toNat = true) → filterBit s (indexOf s n).toNat = false →
    exec (.query false) s = .next
      { s with result := false, probes := BitVec.ofNat 16 (n + 1), idx := indexOf s n
               hostOut := s.hostOut ++
                 [{ st := 0x00#8, r := indexOf s n ++ (0#32 ++ (BitVec.ofNat 16 (n + 1) ++ 0#16)) }] }

/-- R131 to R134, R161: the errors of the filter commands, in their order. -/
def Obligations.FilterCommandErrors : Prop :=
  ∀ s : State, s.err = 0 →
    (∀ (nbits : Word) (k : BitVec 16),
      (nbits = 0 ∨ s.inst.nwords.toNat < (nbits.toNat + 63) / 64 + 1 ∨ k = 0 →
        exec (.cfg nbits k) s = .next (raised s 0x03#8 0x50#8 0#8)) ∧
      (1 ≤ nbits.toNat → (nbits.toNat + 63) / 64 + 1 ≤ s.inst.nwords.toNat → s.inst.kMax.toNat < k.toNat →
        exec (.cfg nbits k) s = .next (raised s 0x04#8 0x50#8 0#8))) ∧
    (s.fphase ≠ .training → exec .sealFilter s = .next (raised s 0x02#8 0x51#8 0#8)) ∧
    (s.fphase = .unconf →
      exec .train s = .next (raised s 0x02#8 0x52#8 0#8) ∧
      exec (.query false) s = .next (raised s 0x02#8 0x53#8 0#8) ∧
      exec (.query true) s = .next (raised s 0x02#8 0x53#8 1#8)) ∧
    (s.fphase = .sealed → exec .train s = .next (raised s 0x06#8 0x52#8 0#8)) ∧
    (s.fphase = .training → s.dv = false → exec .train s = .next (raised s 0x02#8 0x52#8 0#8)) ∧
    (s.fphase ≠ .unconf → s.dv = false → exec (.query false) s = .next (raised s 0x02#8 0x53#8 0#8))

/-- R57: `BSET` is idempotent, and so is `TRAIN` with an unchanged digest: sent again, they change nothing but the record
of responses. -/
def Obligations.RepeatedSetChangesNothing : Prop :=
  (∀ (s t u : State) (idx : Word), Memory.wf s.mem = true → exec (.bset idx) s = .next t →
    exec (.bset idx) t = .next u → u = { t with hostOut := u.hostOut }) ∧
  (∀ s t u : State, Memory.wf s.mem = true → exec .train s = .next t → exec .train t = .next u →
    u = { t with hostOut := u.hostOut })

/-- R135 item 1, no false negatives: an element inserted is found after any commands that hold no `CFG`, all of them
answered `OK`. -/
def Obligations.NoFalseNegatives : Prop :=
  ∀ (b : List Byte) (cs : List Instr) (s t : State), b.length ≤ 2 ^ 64 - 1 → s.err = 0 →
    (∀ c ∈ cs, isCfg c = false) →
    runCommands (expand (.insert b) ++ (cs ++ expand (.contains b))) s = .next t → allOk s t →
    t.result = true ∧ ∃ r, t.hostOut.getLast? = some r ∧ r.r.getLsbD 0 = true

/-- R135 item 3, empty training set: after a `CFG` and commands that hold no `CFG`, `BSET` or `TRAIN`, all answered `OK`,
a `QUERY` answers 0. -/
def Obligations.EmptyFilterHoldsNothing : Prop :=
  ∀ (nbits : Word) (k : BitVec 16) (cs : List Instr) (null : Bool) (s t : State), s.err = 0 →
    (∀ c ∈ cs, isCfg c = false ∧ c ≠ .train ∧ ∀ idx, c ≠ .bset idx) →
    runCommands (.cfg nbits k :: (cs ++ [.query null])) s = .next t → allOk s t →
    t.result = false ∧ ∃ r, t.hostOut.getLast? = some r ∧ r.r.getLsbD 0 = false

/-! ## Errors (spec/60_exceptions.md) and the whole machine -/

/-- R163, R168: a command that raises has changed nothing but `ERR` and `ERRCMD`, which record a code of R160 and the
command's `{op, a}`. -/
def Obligations.ErrorsArePrecise : Prop :=
  ∀ (i : Instr) (s t : State), s.err = 0 → exec i s = .next t → t.err ≠ 0 →
    t = raised s t.err (opcode i) (smallOperand i) ∧ t.err.toNat ≤ 8

/-- R164: while faulted every word but a legal `RDREG` and a legal `ERRCLR` is answered `0x7F` and changes nothing. -/
def Obligations.FaultedCoreRefusesEveryOtherWord : Prop :=
  ∀ (s : State) (w : CommandWord) (rest : List HostEvent), s.err ≠ 0 → s.hostIn = .command w :: rest →
    (∀ i, decode w = .ok i → acceptedWhileFaulted i = false) →
    step s = .next (answered { s with hostIn := rest } 0x7F#8 0)

/-- R165, R166: the first error stays recorded until `ERRCLR` or the reset event. -/
def Obligations.FirstErrorStaysUntilCleared : Prop :=
  ∀ s t : State, s.err ≠ 0 → step s = .next t →
    (t.err = s.err ∧ t.errcmd = s.errcmd) ∨
    (t.err = 0 ∧ t.errcmd = 0 ∧
      ∃ rest, s.hostIn = .command (encode .errclr) :: rest ∨ s.hostIn = .reset :: rest)

/-- R71: a command word gets exactly one response, appended to those before it; its status is a code of R160 and its data
are zero whenever the status is not `OK`. -/
def Obligations.OneResponsePerCommand : Prop :=
  ∀ (s t : State) (w : CommandWord) (rest : List HostEvent), s.hostIn = .command w :: rest → step s = .next t →
    t.hostIn = rest ∧
    ∃ r : Response, t.hostOut = s.hostOut ++ [r] ∧ (r.st.toNat ≤ 8 ∨ r.st = 0x7F#8) ∧ (r.st ≠ 0 → r.r = 0)

/-- R130, R27: the phase changes only as the diagram of R130 shows. -/
def Obligations.PhaseChangesOnlyByTheDiagram : Prop :=
  ∀ s t : State, step s = .next t →
    t.fphase = s.fphase ∨
    (∃ nbits k rest, s.hostIn = .command (encode (.cfg nbits k)) :: rest ∧ t.fphase = .training) ∨
    (∃ rest, s.hostIn = .command (encode .sealFilter) :: rest ∧ s.fphase = .training ∧ t.fphase = .sealed) ∨
    (∃ rest, s.hostIn = .reset :: rest ∧ t.fphase = .unconf)

/-- R35: the sizing registers are written only by a `CFG` that does not fail, and by reset. -/
def Obligations.SizingIsWrittenOnlyByCfgAndReset : Prop :=
  ∀ s t : State, step s = .next t →
    (t.nbits = s.nbits ∧ t.k = s.k ∧ t.awords = s.awords) ∨
    (∃ nbits k rest, s.hostIn = .command (encode (.cfg nbits k)) :: rest ∧ s.err = 0 ∧ t.err = 0 ∧
      t.nbits = nbits ∧ t.k = k ∧ t.awords.toNat = (nbits.toNat + 63) / 64 + 1) ∨
    (∃ rest, s.hostIn = .reset :: rest ∧ t.nbits = 0 ∧ t.k = 0 ∧ t.awords = 0)

/-- R27, R59: a sealed filter is immutable: no command but `CFG` changes its memory, its sizing or its phase. -/
def Obligations.SealedFilterIsImmutable : Prop :=
  ∀ (c : Instr) (s t : State), s.fphase = .sealed → isCfg c = false → exec c s = .next t →
    t.mem = s.mem ∧ t.nbits = s.nbits ∧ t.k = s.k ∧ t.awords = s.awords ∧ t.fphase = .sealed

/-- R41: the invariants hold in the state after reset. -/
def Obligations.InvariantsHoldAtReset : Prop := Inv State.reset

/-- R41: every step keeps the invariants, from any state that has them. -/
def Obligations.StepKeepsTheInvariants : Prop :=
  ∀ s t : State, Inv s → step s = .next t → Inv t

/-- The memory list stays in canonical form and inside `MEM` at every step, whatever else the state holds (log 1, log 2). -/
def Obligations.StepKeepsTheMemoryForm : Prop :=
  ∀ s t : State, Memory.wf s.mem = true → Memory.within s.mem s.inst.nwords.toNat = true → step s = .next t →
    Memory.wf t.mem = true ∧ Memory.within t.mem t.inst.nwords.toNat = true

/-- R199: from every state with the invariants the step answers a next state: no fault, no refusal. -/
def Obligations.EveryStepAnswers : Prop :=
  ∀ s : State, Inv s → ∃ t : State, step s = .next t

/-- R42, R58: `MEM` at and above `AWORDS`, and all of `MEM` while no filter exists, cannot be observed: two states that
differ only there step alike and stay so, with the same responses. -/
def Obligations.HiddenMemoryIsUnobservable : Prop :=
  ∀ s t : State, SameVisible s t →
    (∃ s' t' : State, step s = .next s' ∧ step t = .next t' ∧ SameVisible s' t') ∨
    (∃ f : Fault, step s = .fault f ∧ step t = .fault f)

/-- R192: two runs of an instance with the same events give the same responses, whatever `MEM` held at reset. -/
def Obligations.RunsDoNotDependOnMemoryAtReset : Prop :=
  ∀ (c : Config.Instance) (events : List HostEvent) (m m' : Memory) (n : Nat), Memory.wf m = true →
    Memory.wf m' = true → Memory.within m c.nwords.toNat = true → Memory.within m' c.nwords.toNat = true →
    ∃ t t' : State,
      runSteps n { State.reset with inst := c, mem := m, hostIn := events } = .next t ∧
      runSteps n { State.reset with inst := c, mem := m', hostIn := events } = .next t' ∧
      t.hostOut = t'.hostOut

/-- R71, R77: the response to a command is one 136-bit word of format `P`, after those before it; bits 135 to 128 are the
status, `ERR` as the command leaves it on a core that was not faulted; bits 127 to 0 are zero where the status is not
`OK`, and in every response to a word whose rule answers no data. A step that takes no command sends nothing. The words
sent, and the commands to come, stand in State by the model's choice (log 4, log 5). -/
def Obligations.ResponsesAreWordsOfFormatP : Prop :=
  (∀ (s t : State) (w : CommandWord) (rest : List HostEvent), s.hostIn = .command w :: rest → step s = .next t →
    ∃ v : ResponseWord, responsesSent t = responsesSent s ++ [v] ∧
      ((v.extractLsb' 128 8).toNat ≤ 8 ∨ v.extractLsb' 128 8 = 0x7F#8) ∧
      (s.err = 0 → v.extractLsb' 128 8 = t.err) ∧
      (v.extractLsb' 128 8 ≠ 0x00#8 → v.extractLsb' 0 128 = 0#128) ∧
      (v.extractLsb' 0 128 ≠ 0#128 → ∃ i, decode w = .ok i ∧ answersData i = true)) ∧
  (∀ s t : State, (∀ w rest, s.hostIn ≠ .command w :: rest) → step s = .next t → responsesSent t = responsesSent s)
end

