-- ==== Sys2Proof/Laws/Decode.lean ====
section
/-! SUPPORT. The fields of an assembled command word (spec/30_encoding.md R70), and `decode` by the value of `op`. -/

namespace Sys2Proof

@[simp] theorem opField_commandWord (op a : BitVec 8) (d : BitVec 128) : opField (commandWord op a d) = op := by
  apply BitVec.eq_of_getLsbD_eq
  intro i hi
  simp only [opField, commandWord, BitVec.getLsbD_extractLsb', BitVec.getLsbD_append]
  simp [hi]
  rw [if_neg (by omega), if_neg (by omega)]
  have e : 136 + i - 128 - 8 = i := by omega
  rw [e, BitVec.getLsbD_eq_getElem hi]

@[simp] theorem aField_commandWord (op a : BitVec 8) (d : BitVec 128) : aField (commandWord op a d) = a := by
  apply BitVec.eq_of_getLsbD_eq
  intro i hi
  simp only [aField, commandWord, BitVec.getLsbD_extractLsb', BitVec.getLsbD_append]
  simp [hi]

@[simp] theorem dField_commandWord (op a : BitVec 8) (d : BitVec 128) : dField (commandWord op a d) = d := by
  apply BitVec.eq_of_getLsbD_eq
  intro i hi
  simp only [dField, commandWord, BitVec.getLsbD_extractLsb', BitVec.getLsbD_append]
  simp [hi]

@[simp] theorem headField_commandWord (op a : BitVec 8) (d : BitVec 128) : headField (commandWord op a d) = op ++ a := by
  apply BitVec.eq_of_getLsbD_eq
  intro i hi
  simp only [headField, commandWord, BitVec.getLsbD_extractLsb', BitVec.getLsbD_append]
  simp [hi]

/-- A command word is its three fields (R70). -/
theorem commandWord_fields (w : CommandWord) : commandWord (opField w) (aField w) (dField w) = w := by
  apply BitVec.eq_of_getLsbD_eq
  intro i hi
  simp only [commandWord, opField, aField, dField, BitVec.getLsbD_append, BitVec.getLsbD_extractLsb']
  split
  · simp; omega
  · split
    · have : 128 + (i - 128) = i := by omega
      simp [this]; omega
    · have : 136 + (i - 128 - 8) = i := by omega
      simp [this]; omega

/-- `{op, a}` of a word is its two fields. -/
theorem headField_eq (w : CommandWord) : headField w = opField w ++ aField w := by
  rw [← commandWord_fields w]; simp

end Sys2Proof
end

