-- ==== Sys2Proof/Laws/Memory.lean ====
section
/-! SUPPORT. The laws of the list of byte cells: a read after a write, the canonical form, and the same for 64-bit words. -/

namespace Sys2Proof.Machine

/-! ## Bytes -/

theorem Memory.readByte_of_absent (m : Memory) (k : Nat) (h : ∀ c ∈ m, c.1 ≠ k) :
    Memory.readByte m k = Memory.unlisted := by
  induction m with
  | nil => rfl
  | cons c m ih =>
    have hc : c.1 ≠ k := h c (by simp)
    simp [Memory.readByte, hc, ih fun d hd => h d (by simp [hd])]

theorem Memory.erase_absent (m : Memory) (k : Nat) : ∀ c ∈ Memory.erase m k, c.1 ≠ k := by
  simp [Memory.erase]

@[simp] theorem Memory.readByte_erase_same (m : Memory) (k : Nat) :
    Memory.readByte (Memory.erase m k) k = Memory.unlisted :=
  Memory.readByte_of_absent _ _ (Memory.erase_absent m k)

theorem Memory.readByte_erase_other (m : Memory) (k a : Nat) (h : a ≠ k) :
    Memory.readByte (Memory.erase m k) a = Memory.readByte m a := by
  induction m with
  | nil => rfl
  | cons c m ih =>
    simp only [Memory.erase] at ih ⊢
    by_cases hc : c.1 = k
    · simp [hc, Memory.readByte, ih]
      intro hka; exact absurd hka.symm h
    · simp [hc, Memory.readByte, ih]

theorem Memory.readByte_insert_same (m : Memory) (k : Nat) (b : Byte) (h : ∀ c ∈ m, c.1 ≠ k) :
    Memory.readByte (Memory.insert m k b) k = b := by
  induction m with
  | nil => simp [Memory.insert, Memory.readByte]
  | cons c m ih =>
    have hc : c.1 ≠ k := h c (by simp)
    have hm := ih fun d hd => h d (by simp [hd])
    unfold Memory.insert
    split
    · simp [Memory.readByte]
    · simp [Memory.readByte, hc, hm]

theorem Memory.readByte_insert_other (m : Memory) (k a : Nat) (b : Byte) (h : a ≠ k) :
    Memory.readByte (Memory.insert m k b) a = Memory.readByte m a := by
  induction m with
  | nil => simp [Memory.insert, Memory.readByte, Ne.symm h]
  | cons c m ih =>
    unfold Memory.insert
    split
    · simp [Memory.readByte, Ne.symm h]
    · simp [Memory.readByte, ih]

/-- A read after a write: the byte written at its address, the old byte elsewhere. -/
theorem Memory.readByte_writeByte (m : Memory) (k a : Nat) (b : Byte) :
    Memory.readByte (Memory.writeByte m k b) a = if a = k then b else Memory.readByte m a := by
  unfold Memory.writeByte
  by_cases ha : a = k
  · subst ha
    split
    · next hb => simp [hb]
    · simp [Memory.readByte_insert_same _ _ _ (Memory.erase_absent m a)]
  · split
    · rw [Memory.readByte_erase_other _ _ _ ha]
    · rw [Memory.readByte_insert_other _ _ _ _ ha, Memory.readByte_erase_other _ _ _ ha]

/-! ## The canonical form -/

theorem Memory.wf_iff (m : Memory) :
    Memory.wf m = true ↔ m.Pairwise (fun x y => x.1 < y.1) ∧ ∀ c ∈ m, c.2 ≠ Memory.unlisted := by
  simp [Memory.wf]

theorem Memory.wf_nil : Memory.wf [] = true := by decide

theorem Memory.wf_erase (m : Memory) (k : Nat) (h : Memory.wf m = true) : Memory.wf (Memory.erase m k) = true := by
  rw [Memory.wf_iff] at h ⊢
  refine ⟨h.1.filter _, fun c hc => h.2 c ?_⟩
  exact (List.mem_filter.1 hc).1

theorem Memory.mem_insert (m : Memory) (k : Nat) (b : Byte) (c : Host.Cell) :
    c ∈ Memory.insert m k b ↔ c = (k, b) ∨ c ∈ m := by
  induction m with
  | nil => simp [Memory.insert]
  | cons d m ih =>
    unfold Memory.insert
    split
    · simp
    · simp only [List.mem_cons, ih]; tauto

theorem Memory.wf_insert (m : Memory) (k : Nat) (b : Byte) (h : Memory.wf m = true) (hk : ∀ c ∈ m, c.1 ≠ k)
    (hb : b ≠ Memory.unlisted) : Memory.wf (Memory.insert m k b) = true := by
  rw [Memory.wf_iff] at h ⊢
  refine ⟨?_, fun c hc => ?_⟩
  · obtain ⟨hp, -⟩ := h
    induction m with
    | nil => simp [Memory.insert]
    | cons d m ih =>
      have hd : d.1 ≠ k := hk d (by simp)
      rw [List.pairwise_cons] at hp
      unfold Memory.insert
      split
      · next hlt =>
        refine List.pairwise_cons.2 ⟨fun c hc => ?_, List.pairwise_cons.2 hp⟩
        rcases List.mem_cons.1 hc with rfl | hc
        · exact hlt
        · exact Nat.lt_trans hlt (hp.1 c hc)
      · next hlt =>
        refine List.pairwise_cons.2 ⟨fun c hc => ?_, ih (fun c hc => hk c (by simp [hc])) hp.2⟩
        rcases (Memory.mem_insert _ _ _ _).1 hc with rfl | hc
        · show d.1 < k
          have : ¬ k < d.1 := hlt
          omega
        · exact hp.1 c hc
  · rcases (Memory.mem_insert _ _ _ _).1 hc with rfl | hc
    · exact hb
    · exact h.2 c hc

/-- A byte write keeps the canonical form. -/
theorem Memory.wf_writeByte (m : Memory) (k : Nat) (b : Byte) (h : Memory.wf m = true) :
    Memory.wf (Memory.writeByte m k b) = true := by
  unfold Memory.writeByte
  split
  · exact Memory.wf_erase m k h
  · next hb => exact Memory.wf_insert _ _ _ (Memory.wf_erase m k h) (Memory.erase_absent m k) hb

theorem Memory.within_iff (m : Memory) (n : Nat) : Memory.within m n = true ↔ ∀ c ∈ m, c.1 < 8 * n := by
  simp [Memory.within]

/-- A byte write below the bound keeps every cell below it. -/
theorem Memory.within_writeByte (m : Memory) (n k : Nat) (b : Byte) (h : Memory.within m n = true) (hk : k < 8 * n) :
    Memory.within (Memory.writeByte m k b) n = true := by
  rw [Memory.within_iff] at h ⊢
  have he : ∀ c ∈ Memory.erase m k, c.1 < 8 * n := fun c hc => h c (List.mem_filter.1 hc).1
  unfold Memory.writeByte
  split
  · exact he
  · intro c hc
    rcases (Memory.mem_insert _ _ _ _).1 hc with rfl | hc
    · exact hk
    · exact he c hc

theorem Memory.readByte_of_lt (m : Memory) (k : Nat) (h : ∀ c ∈ m, k < c.1) :
    Memory.readByte m k = Memory.unlisted :=
  Memory.readByte_of_absent m k fun c hc e => absurd (h c hc) (by omega)

/-- Canonical memories that read the same at every address are the same list. -/
theorem Memory.ext (m m' : Memory) (h : Memory.wf m = true) (h' : Memory.wf m' = true)
    (hr : ∀ a, Memory.readByte m a = Memory.readByte m' a) : m = m' := by
  rw [Memory.wf_iff] at h h'
  induction m generalizing m' with
  | nil =>
    cases m' with
    | nil => rfl
    | cons d m' =>
      have := hr d.1
      simp [Memory.readByte] at this
      exact absurd this.symm (h'.2 d (by simp))
  | cons c m ih =>
    have hc := List.pairwise_cons.1 h.1
    have hcv : c.2 ≠ Memory.unlisted := h.2 c (by simp)
    cases m' with
    | nil =>
      have := hr c.1
      simp [Memory.readByte] at this
      exact absurd this hcv
    | cons d m' =>
      have hd := List.pairwise_cons.1 h'.1
      have hdv : d.2 ≠ Memory.unlisted := h'.2 d (by simp)
      have hkey : c.1 = d.1 := by
        rcases Nat.lt_trichotomy c.1 d.1 with hlt | heq | hgt
        · have hx := hr c.1
          rw [Memory.readByte_of_lt (d :: m') c.1 (by
            intro e he
            rcases List.mem_cons.1 he with rfl | he
            · exact hlt
            · exact Nat.lt_trans hlt (hd.1 e he))] at hx
          simp [Memory.readByte] at hx
          exact absurd hx hcv
        · exact heq
        · have hx := hr d.1
          rw [Memory.readByte_of_lt (c :: m) d.1 (by
            intro e he
            rcases List.mem_cons.1 he with rfl | he
            · exact hgt
            · exact Nat.lt_trans hgt (hc.1 e he))] at hx
          simp [Memory.readByte] at hx
          exact absurd hx.symm hdv
      have hval : c.2 = d.2 := by
        have := hr c.1
        simpa [Memory.readByte, hkey] using this
      have hcd : c = d := Prod.ext hkey hval
      subst hcd
      rw [ih m' ⟨hc.2, fun e he => h.2 e (by simp [he])⟩ ⟨hd.2, fun e he => h'.2 e (by simp [he])⟩]
      intro a
      by_cases ha : c.1 = a
      · subst ha
        rw [Memory.readByte_of_lt m c.1 hc.1, Memory.readByte_of_lt m' c.1 hd.1]
      · have := hr a
        simpa [Memory.readByte, ha] using this

/-- Cells put into canonical form are in canonical form and inside the bound. -/
theorem Memory.ofCells_spec (n : Nat) (cells : List Host.Cell) :
    Memory.wf (Memory.ofCells n cells) = true ∧ Memory.within (Memory.ofCells n cells) n = true := by
  have key : ∀ (cells : List Host.Cell) (m : Memory), Memory.wf m = true → Memory.within m n = true →
      Memory.wf (cells.foldl (fun m c => if c.1 < 8 * n then Memory.writeByte m c.1 c.2 else m) m) = true ∧
      Memory.within (cells.foldl (fun m c => if c.1 < 8 * n then Memory.writeByte m c.1 c.2 else m) m) n = true := by
    intro cells
    induction cells with
    | nil => intro m h1 h2; exact ⟨h1, h2⟩
    | cons c cells ih =>
      intro m h1 h2
      simp only [List.foldl_cons]
      split
      · next hc => exact ih _ (Memory.wf_writeByte m _ _ h1) (Memory.within_writeByte m n _ _ h2 hc)
      · exact ih m h1 h2
  exact key cells [] Memory.wf_nil (by simp [Memory.within])

/-! ## Words -/

/-- A word write touches its own eight cells and no other. -/
theorem Memory.readByte_writeLanes (m : Memory) (w : Nat) (v : Word) (n a : Nat) :
    Memory.readByte (Memory.writeLanes m w v n) a =
      if 8 * w ≤ a ∧ a < 8 * w + n then byteLane v (a - 8 * w) else Memory.readByte m a := by
  induction n with
  | zero => rw [Memory.writeLanes, if_neg (by omega)]
  | succ n ih =>
    rw [Memory.writeLanes, Memory.readByte_writeByte, ih]
    by_cases h : a = 8 * w + n
    · subst h
      rw [if_pos rfl, if_pos (by omega)]
      congr 1
      omega
    · rw [if_neg h]
      by_cases h2 : 8 * w ≤ a ∧ a < 8 * w + n
      · rw [if_pos h2, if_pos (by omega)]
      · rw [if_neg h2, if_neg (by omega)]

theorem Memory.readByte_writeWord (m : Memory) (w : Nat) (v : Word) (a : Nat) :
    Memory.readByte (Memory.writeWord m w v) a =
      if 8 * w ≤ a ∧ a < 8 * w + 8 then byteLane v (a - 8 * w) else Memory.readByte m a :=
  Memory.readByte_writeLanes m w v 8 a

/-- Bit `i` of a word is bit `i mod 8` of its byte cell `i div 8`. -/
theorem Memory.getLsbD_readWord (m : Memory) (w i : Nat) (h : i < 64) :
    (Memory.readWord m w).getLsbD i = (Memory.readByte m (8 * w + i / 8)).getLsbD (i % 8) := by
  unfold Memory.readWord
  simp only [BitVec.getLsbD_append]
  have h8 : i / 8 = 0 ∨ i / 8 = 1 ∨ i / 8 = 2 ∨ i / 8 = 3 ∨ i / 8 = 4 ∨ i / 8 = 5 ∨ i / 8 = 6 ∨ i / 8 = 7 := by omega
  rcases h8 with e | e | e | e | e | e | e | e <;> rw [e] <;>
    (repeat' split) <;> first
      | (exfalso; omega)
      | (congr 1; omega)

theorem getLsbD_byteLane {n : Nat} (v : BitVec n) (j i : Nat) (h : i < 8) :
    (byteLane v j).getLsbD i = v.getLsbD (8 * j + i) := by
  simp [byteLane, h]

/-- A word read after a word write. -/
theorem Memory.readWord_writeWord (m : Memory) (w x : Nat) (v : Word) :
    Memory.readWord (Memory.writeWord m w v) x = if x = w then v else Memory.readWord m x := by
  apply BitVec.eq_of_getLsbD_eq
  intro i hi
  rw [Memory.getLsbD_readWord _ _ _ hi, Memory.readByte_writeWord]
  by_cases hx : x = w
  · subst hx
    rw [if_pos (by omega), if_pos rfl, getLsbD_byteLane _ _ _ (by omega)]
    congr 1
    omega
  · rw [if_neg (by omega), if_neg hx, Memory.getLsbD_readWord _ _ _ hi]

theorem Memory.wf_writeLanes (m : Memory) (w : Nat) (v : Word) (n : Nat) (h : Memory.wf m = true) :
    Memory.wf (Memory.writeLanes m w v n) = true := by
  induction n with
  | zero => exact h
  | succ n ih => exact Memory.wf_writeByte _ _ _ ih

/-- A word write keeps the canonical form. -/
theorem Memory.wf_writeWord (m : Memory) (w : Nat) (v : Word) (h : Memory.wf m = true) :
    Memory.wf (Memory.writeWord m w v) = true := Memory.wf_writeLanes m w v 8 h

theorem Memory.within_writeLanes (m : Memory) (N w : Nat) (v : Word) (n : Nat) (hn : n ≤ 8) (hw : w < N)
    (h : Memory.within m N = true) : Memory.within (Memory.writeLanes m w v n) N = true := by
  induction n with
  | zero => exact h
  | succ n ih => exact Memory.within_writeByte _ _ _ _ (ih (by omega)) (by omega)

/-- A write to a word that exists keeps every cell inside `MEM`. -/
theorem Memory.within_writeWord (m : Memory) (N w : Nat) (v : Word) (hw : w < N) (h : Memory.within m N = true) :
    Memory.within (Memory.writeWord m w v) N = true := Memory.within_writeLanes m N w v 8 (by omega) hw h

end Sys2Proof.Machine
end

