-- ==== Sys2Proof/Laws/State.lean ====
section
/-! SUPPORT. One lemma per field of `State` for each shared update: `respond`, `raise`, `clearError`. -/

namespace Sys2Proof.Machine

@[simp] theorem respond_h1 (s : State) (st : BitVec 8) (r : BitVec 128) : (respond s st r).h1 = s.h1 := rfl
@[simp] theorem respond_h2 (s : State) (st : BitVec 8) (r : BitVec 128) : (respond s st r).h2 = s.h2 := rfl
@[simp] theorem respond_len (s : State) (st : BitVec 8) (r : BitVec 128) : (respond s st r).len = s.len := rfl
@[simp] theorem respond_buf (s : State) (st : BitVec 8) (r : BitVec 128) : (respond s st r).buf = s.buf := rfl
@[simp] theorem respond_fill (s : State) (st : BitVec 8) (r : BitVec 128) : (respond s st r).fill = s.fill := rfl
@[simp] theorem respond_seed (s : State) (st : BitVec 8) (r : BitVec 128) : (respond s st r).seed = s.seed := rfl
@[simp] theorem respond_idx (s : State) (st : BitVec 8) (r : BitVec 128) : (respond s st r).idx = s.idx := rfl
@[simp] theorem respond_probes (s : State) (st : BitVec 8) (r : BitVec 128) : (respond s st r).probes = s.probes := rfl
@[simp] theorem respond_result (s : State) (st : BitVec 8) (r : BitVec 128) : (respond s st r).result = s.result := rfl
@[simp] theorem respond_nbits (s : State) (st : BitVec 8) (r : BitVec 128) : (respond s st r).nbits = s.nbits := rfl
@[simp] theorem respond_k (s : State) (st : BitVec 8) (r : BitVec 128) : (respond s st r).k = s.k := rfl
@[simp] theorem respond_awords (s : State) (st : BitVec 8) (r : BitVec 128) : (respond s st r).awords = s.awords := rfl
@[simp] theorem respond_fphase (s : State) (st : BitVec 8) (r : BitVec 128) : (respond s st r).fphase = s.fphase := rfl
@[simp] theorem respond_hact (s : State) (st : BitVec 8) (r : BitVec 128) : (respond s st r).hact = s.hact := rfl
@[simp] theorem respond_dv (s : State) (st : BitVec 8) (r : BitVec 128) : (respond s st r).dv = s.dv := rfl
@[simp] theorem respond_blkonly (s : State) (st : BitVec 8) (r : BitVec 128) : (respond s st r).blkonly = s.blkonly := rfl
@[simp] theorem respond_err (s : State) (st : BitVec 8) (r : BitVec 128) : (respond s st r).err = s.err := rfl
@[simp] theorem respond_errcmd (s : State) (st : BitVec 8) (r : BitVec 128) : (respond s st r).errcmd = s.errcmd := rfl
@[simp] theorem respond_mem (s : State) (st : BitVec 8) (r : BitVec 128) : (respond s st r).mem = s.mem := rfl
@[simp] theorem respond_inst (s : State) (st : BitVec 8) (r : BitVec 128) : (respond s st r).inst = s.inst := rfl
@[simp] theorem respond_hostIn (s : State) (st : BitVec 8) (r : BitVec 128) : (respond s st r).hostIn = s.hostIn := rfl
@[simp] theorem respond_draws (s : State) (st : BitVec 8) (r : BitVec 128) : (respond s st r).draws = s.draws := rfl
@[simp] theorem respond_hostOut (s : State) (st : BitVec 8) (r : BitVec 128) :
    (respond s st r).hostOut = s.hostOut ++ [⟨st, r⟩] := rfl

@[simp] theorem raise_h1 (s : State) (e : CmdError) (c : BitVec 16) : (raise s e c).h1 = s.h1 := rfl
@[simp] theorem raise_h2 (s : State) (e : CmdError) (c : BitVec 16) : (raise s e c).h2 = s.h2 := rfl
@[simp] theorem raise_len (s : State) (e : CmdError) (c : BitVec 16) : (raise s e c).len = s.len := rfl
@[simp] theorem raise_buf (s : State) (e : CmdError) (c : BitVec 16) : (raise s e c).buf = s.buf := rfl
@[simp] theorem raise_fill (s : State) (e : CmdError) (c : BitVec 16) : (raise s e c).fill = s.fill := rfl
@[simp] theorem raise_seed (s : State) (e : CmdError) (c : BitVec 16) : (raise s e c).seed = s.seed := rfl
@[simp] theorem raise_idx (s : State) (e : CmdError) (c : BitVec 16) : (raise s e c).idx = s.idx := rfl
@[simp] theorem raise_probes (s : State) (e : CmdError) (c : BitVec 16) : (raise s e c).probes = s.probes := rfl
@[simp] theorem raise_result (s : State) (e : CmdError) (c : BitVec 16) : (raise s e c).result = s.result := rfl
@[simp] theorem raise_nbits (s : State) (e : CmdError) (c : BitVec 16) : (raise s e c).nbits = s.nbits := rfl
@[simp] theorem raise_k (s : State) (e : CmdError) (c : BitVec 16) : (raise s e c).k = s.k := rfl
@[simp] theorem raise_awords (s : State) (e : CmdError) (c : BitVec 16) : (raise s e c).awords = s.awords := rfl
@[simp] theorem raise_fphase (s : State) (e : CmdError) (c : BitVec 16) : (raise s e c).fphase = s.fphase := rfl
@[simp] theorem raise_hact (s : State) (e : CmdError) (c : BitVec 16) : (raise s e c).hact = s.hact := rfl
@[simp] theorem raise_dv (s : State) (e : CmdError) (c : BitVec 16) : (raise s e c).dv = s.dv := rfl
@[simp] theorem raise_blkonly (s : State) (e : CmdError) (c : BitVec 16) : (raise s e c).blkonly = s.blkonly := rfl
@[simp] theorem raise_mem (s : State) (e : CmdError) (c : BitVec 16) : (raise s e c).mem = s.mem := rfl
@[simp] theorem raise_inst (s : State) (e : CmdError) (c : BitVec 16) : (raise s e c).inst = s.inst := rfl
@[simp] theorem raise_hostIn (s : State) (e : CmdError) (c : BitVec 16) : (raise s e c).hostIn = s.hostIn := rfl
@[simp] theorem raise_draws (s : State) (e : CmdError) (c : BitVec 16) : (raise s e c).draws = s.draws := rfl
@[simp] theorem raise_err (s : State) (e : CmdError) (c : BitVec 16) : (raise s e c).err = errCode e := rfl
@[simp] theorem raise_errcmd (s : State) (e : CmdError) (c : BitVec 16) : (raise s e c).errcmd = c := rfl
@[simp] theorem raise_hostOut (s : State) (e : CmdError) (c : BitVec 16) :
    (raise s e c).hostOut = s.hostOut ++ [⟨errCode e, 0⟩] := rfl

@[simp] theorem clearError_h1 (s : State) : (clearError s).h1 = s.h1 := rfl
@[simp] theorem clearError_h2 (s : State) : (clearError s).h2 = s.h2 := rfl
@[simp] theorem clearError_len (s : State) : (clearError s).len = s.len := rfl
@[simp] theorem clearError_buf (s : State) : (clearError s).buf = s.buf := rfl
@[simp] theorem clearError_fill (s : State) : (clearError s).fill = s.fill := rfl
@[simp] theorem clearError_seed (s : State) : (clearError s).seed = s.seed := rfl
@[simp] theorem clearError_idx (s : State) : (clearError s).idx = s.idx := rfl
@[simp] theorem clearError_probes (s : State) : (clearError s).probes = s.probes := rfl
@[simp] theorem clearError_result (s : State) : (clearError s).result = s.result := rfl
@[simp] theorem clearError_nbits (s : State) : (clearError s).nbits = s.nbits := rfl
@[simp] theorem clearError_k (s : State) : (clearError s).k = s.k := rfl
@[simp] theorem clearError_awords (s : State) : (clearError s).awords = s.awords := rfl
@[simp] theorem clearError_fphase (s : State) : (clearError s).fphase = s.fphase := rfl
@[simp] theorem clearError_hact (s : State) : (clearError s).hact = s.hact := rfl
@[simp] theorem clearError_dv (s : State) : (clearError s).dv = s.dv := rfl
@[simp] theorem clearError_blkonly (s : State) : (clearError s).blkonly = s.blkonly := rfl
@[simp] theorem clearError_mem (s : State) : (clearError s).mem = s.mem := rfl
@[simp] theorem clearError_inst (s : State) : (clearError s).inst = s.inst := rfl
@[simp] theorem clearError_hostIn (s : State) : (clearError s).hostIn = s.hostIn := rfl
@[simp] theorem clearError_hostOut (s : State) : (clearError s).hostOut = s.hostOut := rfl
@[simp] theorem clearError_draws (s : State) : (clearError s).draws = s.draws := rfl
@[simp] theorem clearError_err (s : State) : (clearError s).err = 0 := rfl
@[simp] theorem clearError_errcmd (s : State) : (clearError s).errcmd = 0 := rfl

/-- `answer` is `respond` with the status `OK`. -/
theorem answer_eq (s : State) (r : BitVec 128) : answer s r = respond s 0 r := rfl

/-- The faulted refusal is a response `0x7F` and nothing else (R164). -/
theorem refuseFaulted_eq (s : State) : refuseFaulted s = respond s 0x7F#8 0 := rfl

/-- No code of R160 is zero, so a raise leaves the core faulted. -/
@[simp] theorem errCode_ne_zero (e : CmdError) : errCode e ≠ 0 := by cases e <;> decide

/-- Every code is one of `0x01` to `0x08` (R32, R41). -/
theorem errCode_le (e : CmdError) : (errCode e).toNat ≤ 8 := by cases e <;> decide

/-- `faulted` in terms of `ERR` (R32). -/
theorem faulted_iff (s : State) : faulted s = true ↔ s.err ≠ 0 := by simp [faulted]

/-- With `ERR = 0` the faulted test passes (R162). -/
theorem whenReady_of_err_zero (s : State) (body : Result) (h : s.err = 0) : whenReady s body = body := by
  simp [whenReady, faulted, h]

/-- With `ERR ≠ 0` a command is refused, whatever it is (R164). -/
theorem whenReady_of_err_ne (s : State) (body : Result) (h : s.err ≠ 0) :
    whenReady s body = .next (respond s 0x7F#8 0) := by
  rw [whenReady, if_pos ((faulted_iff s).2 h)]; rfl

end Sys2Proof.Machine
end

