-- ==== Sys2Proof/Laws/Ops.lean ====
section
/-! SUPPORT. One lemma for each shared operation, which says once everything it can do: the checked accesses to `MEM`, `BitGet`
and `BitSet`, the clearing loop of `CFG`, the loops of `TRAIN` and `QUERY`, absorbing bytes. -/

namespace Sys2Proof.Machine

open Sys2Proof.Safety

/-! ## Response words (R71) -/

@[simp] theorem stField_responseWord (x : Response) : stField (responseWord x) = x.st := by
  apply BitVec.eq_of_getLsbD_eq
  intro i hi
  simp only [stField, responseWord, BitVec.getLsbD_extractLsb', BitVec.getLsbD_append]
  simp [hi]

@[simp] theorem rField_responseWord (x : Response) : rField (responseWord x) = x.r := by
  apply BitVec.eq_of_getLsbD_eq
  intro i hi
  simp only [rField, responseWord, BitVec.getLsbD_extractLsb', BitVec.getLsbD_append]
  simp [hi]

@[simp] theorem responseOfWord_responseWord (x : Response) : responseOfWord (responseWord x) = x := by
  simp [responseOfWord]

/-- A response word holds nothing but its two fields. -/
@[simp] theorem responseWord_responseOfWord (v : ResponseWord) : responseWord (responseOfWord v) = v := by
  apply BitVec.eq_of_getLsbD_eq
  intro i hi
  simp only [responseOfWord, responseWord, stField, rField, BitVec.getLsbD_append, BitVec.getLsbD_extractLsb']
  by_cases h : i < 128
  · simp [h]
  · have h1 : i - 128 < 8 := by omega
    have h2 : 128 + (i - 128) = i := by omega
    simp [h, h1, h2]

theorem responsesSent_respond (s : State) (st : BitVec 8) (r : BitVec 128) :
    responsesSent (respond s st r) = responsesSent s ++ [responseWord { st := st, r := r }] := by
  simp [responsesSent, respond]

/-! ## Accesses to `MEM` -/

theorem checkWord_eq_ok (s : State) (w : Nat) :
    checkWord s w = .ok () ↔ w < s.inst.nwords.toNat ∧ w < s.awords.toNat := by
  unfold checkWord
  split
  · constructor
    · intro h; cases h
    · intro h; omega
  · split
    · constructor
      · intro h; cases h
      · intro h; omega
    · simp; omega

theorem memRead_eq_ok (s : State) (w : Nat) (v : Word) :
    memRead s w = .ok v ↔ (w < s.inst.nwords.toNat ∧ w < s.awords.toNat) ∧ v = Memory.readWord s.mem w := by
  rw [← checkWord_eq_ok]
  unfold memRead
  cases h : checkWord s w with
  | ok u => simp [eq_comm]
  | error f => simp

theorem memWrite_eq_ok (s : State) (w : Nat) (v : Word) (t : State) :
    memWrite s w v = .ok t ↔
      (w < s.inst.nwords.toNat ∧ w < s.awords.toNat) ∧ t = { s with mem := Memory.writeWord s.mem w v } := by
  rw [← checkWord_eq_ok]
  unfold memWrite
  cases h : checkWord s w with
  | ok u => simp [eq_comm]
  | error f => simp

/-- The word of an index is inside the memory and the allocation. -/
abbrev indexInside (s : State) (idx : Word) : Prop :=
  wordIndex idx < s.inst.nwords.toNat ∧ wordIndex idx < s.awords.toNat

theorem bitGet_eq_ok (s : State) (idx v : Word) :
    bitGet s idx = .ok v ↔
      indexInside s idx ∧ v = (Memory.readWord s.mem (wordIndex idx) >>> bitOffset idx) &&& 1#64 := by
  unfold bitGet
  cases h : memRead s (wordIndex idx) with
  | ok u =>
    have := (memRead_eq_ok s (wordIndex idx) u).1 h
    simp only [Except.ok.injEq, this.2]
    exact ⟨fun e => ⟨this.1, e.symm⟩, fun e => e.2.symm⟩
  | error f =>
    have : ¬ indexInside s idx := fun hi => by
      have := (memRead_eq_ok s (wordIndex idx) _).2 ⟨hi, rfl⟩
      rw [h] at this; cases this
    simp [this]

/-- `BitGet` answers the filter bit as 0 or 1 (R90). -/
theorem bitGet_value (s : State) (idx : Word) :
    (Memory.readWord s.mem (wordIndex idx) >>> bitOffset idx) &&& 1#64 =
      if filterBit s idx.toNat then 1#64 else 0#64 := by
  apply BitVec.eq_of_getLsbD_eq
  intro i hi
  unfold filterBit wordIndex bitOffset
  have hone : (1#64).getLsbD i = decide (i = 0) := by
    rw [BitVec.getLsbD_one]; simp
  rw [BitVec.getLsbD_and, hone]
  by_cases h : i = 0
  · subst h
    by_cases hb : (Memory.readWord s.mem (idx.toNat / 64)).getLsbD (idx.toNat % 64) <;> simp [hb]
  · by_cases hb : (Memory.readWord s.mem (idx.toNat / 64)).getLsbD (idx.toNat % 64) <;> simp [hb, h]

theorem bitGet_of_inside (s : State) (idx : Word) (h : indexInside s idx) :
    bitGet s idx = .ok (if filterBit s idx.toNat then 1#64 else 0#64) :=
  (bitGet_eq_ok s idx _).2 ⟨h, (bitGet_value s idx).symm⟩

theorem bitSet_eq_ok (s : State) (idx : Word) (t : State) :
    bitSet s idx = .ok t ↔
      indexInside s idx ∧
        t = { s with mem := (Memory.writeWord s.mem (wordIndex idx)
                (Memory.readWord s.mem (wordIndex idx) ||| (1#64 <<< bitOffset idx))) } := by
  unfold bitSet
  cases h : memRead s (wordIndex idx) with
  | ok u =>
    have := (memRead_eq_ok s (wordIndex idx) u).1 h
    simp only [memWrite_eq_ok, this.2]
  | error f =>
    have : ¬ indexInside s idx := fun hi => by
      have := (memRead_eq_ok s (wordIndex idx) _).2 ⟨hi, rfl⟩
      rw [h] at this; cases this
    simp [this]

/-- What `BitSet` does where its index is inside: its bit is set, every other bit and byte is kept, nothing but `MEM`
changes, and the canonical form is kept (R90, R93). -/
theorem bitSet_spec (s : State) (idx : Word) (h : indexInside s idx) :
    ∃ m : Memory, bitSet s idx = .ok { s with mem := m } ∧
      (∀ j, filterBit { s with mem := m } j = (decide (j = idx.toNat) || filterBit s j)) ∧
      (∀ a, ¬ (8 * wordIndex idx ≤ a ∧ a < 8 * wordIndex idx + 8) →
        Memory.readByte m a = Memory.readByte s.mem a) ∧
      (Memory.wf s.mem = true → Memory.wf m = true) ∧
      (Memory.within s.mem s.inst.nwords.toNat = true → Memory.within m s.inst.nwords.toNat = true) := by
  refine ⟨_, (bitSet_eq_ok s idx _).2 ⟨h, rfl⟩, fun j => ?_, fun a ha => ?_, fun hw => ?_, fun hw => ?_⟩
  · unfold filterBit
    simp only [Memory.readWord_writeWord]
    by_cases hw : j / 64 = wordIndex idx
    · rw [if_pos hw, hw]
      have hone : (1#64 <<< bitOffset idx).getLsbD (j % 64) = decide (j = idx.toNat) := by
        unfold bitOffset
        unfold wordIndex at hw
        rw [BitVec.getLsbD_shiftLeft, BitVec.getLsbD_one]
        by_cases hj : j = idx.toNat
        · subst hj; simp; omega
        · have : j % 64 ≠ idx.toNat % 64 := by omega
          simp [hj]; omega
      simp [hone, Bool.or_comm]
    · have : j ≠ idx.toNat := by
        intro e; subst e; exact hw rfl
      rw [if_neg hw]; simp [this]
  · rw [Memory.readByte_writeWord, if_neg ha]
  · exact Memory.wf_writeWord _ _ _ hw
  · exact Memory.within_writeWord _ _ _ _ h.1 hw

/-- What the clearing loop of `CFG` does: the first `n` words read zero, every other byte is kept, nothing but `MEM`
changes, and the canonical form is kept (R131). -/
theorem clearWords_spec (s : State) (n : Nat) (ha : n ≤ s.awords.toNat) (hn : n ≤ s.inst.nwords.toNat) :
    ∃ m : Memory, clearWords s n = .ok { s with mem := m } ∧
      (∀ a, Memory.readByte m a = if a < 8 * n then 0#8 else Memory.readByte s.mem a) ∧
      (Memory.wf s.mem = true → Memory.wf m = true) ∧
      (Memory.within s.mem s.inst.nwords.toNat = true → Memory.within m s.inst.nwords.toNat = true) := by
  induction n with
  | zero => exact ⟨s.mem, rfl, fun a => by simp, id, id⟩
  | succ n ih =>
    obtain ⟨m, ht, hb, hw, hi⟩ := ih (by omega) (by omega)
    refine ⟨Memory.writeWord m n 0#64, ?_, fun a => ?_, fun h => ?_, fun h => ?_⟩
    · simp only [clearWords, ht]
      exact (memWrite_eq_ok _ n 0#64 _).2 ⟨⟨by simpa using hn, by simpa using ha⟩, rfl⟩
    · rw [Memory.readByte_writeWord, hb a]
      by_cases h1 : 8 * n ≤ a ∧ a < 8 * n + 8
      · rw [if_pos h1, if_pos (by omega)]; simp [byteLane]
      · rw [if_neg h1]
        by_cases h2 : a < 8 * n
        · rw [if_pos h2, if_pos (by omega)]
        · rw [if_neg h2, if_neg (by omega)]
    · exact Memory.wf_writeWord _ _ _ (hw h)
    · exact Memory.within_writeWord _ _ _ _ (by omega) (hi h)

/-- A filter bit whose word's bytes all read zero is 0. -/
theorem filterBit_of_bytes_zero (s : State) (n j : Nat) (h : ∀ a, a < 8 * n → byteAt s a = 0#8) (hj : j < 64 * n) :
    filterBit s j = false := by
  unfold filterBit
  rw [Memory.getLsbD_readWord _ _ _ (by omega)]
  have := h (8 * (j / 64) + j % 64 / 8) (by omega)
  unfold byteAt at this
  rw [this]; simp

/-- Words that agree give the same filter bits. -/
theorem filterBit_congr (s t : State) (j : Nat)
    (h : Memory.readWord s.mem (j / 64) = Memory.readWord t.mem (j / 64)) : filterBit s j = filterBit t j := by
  unfold filterBit; rw [h]

/-! ## The deriver -/

theorem deriveIndex_of_ne_zero (s : State) (i : BitVec 16) (h : s.nbits ≠ 0) :
    deriveIndex s i = .ok (deriveValue s.inst.absMin s.h1 s.h2 s.k s.nbits i) := by
  rw [deriveIndex, if_neg h]

/-- A derived index is below the filter size (R122). -/
theorem deriveValue_lt (am : Config.AbsMin) (h1 h2 : Word) (k : BitVec 16) (m : Word) (i : BitVec 16) (h : m ≠ 0) :
    (deriveValue am h1 h2 k m i).toNat < m.toNat := by
  unfold deriveValue
  rw [BitVec.toNat_umod]
  apply Nat.mod_lt
  rcases Nat.eq_zero_or_pos m.toNat with h0 | h0
  · exact absurd (BitVec.eq_of_toNat_eq (by simpa using h0)) h
  · exact h0

/-! ## Absorbing message bytes -/

theorem absorb_nil (s : State) : absorb s [] = s := rfl

theorem absorb_cons (s : State) (b : Byte) (bs : List Byte) : absorb s (b :: bs) = absorb (absorbByte s b) bs := rfl

theorem absorb_append (s : State) (bs cs : List Byte) : absorb s (bs ++ cs) = absorb (absorb s bs) cs := by
  simp [absorb, List.foldl_append]

/-- Absorbing a byte writes `H1`, `H2`, `BUF` and `FILL` and nothing else (R104). -/
theorem absorbByte_frame (s : State) (b : Byte) :
    ∃ h1 h2 buf fill, absorbByte s b = { s with h1 := h1, h2 := h2, buf := buf, fill := fill } := by
  unfold absorbByte
  split
  · exact ⟨_, _, _, _, rfl⟩
  · exact ⟨s.h1, s.h2, _, _, rfl⟩

/-- Absorbing bytes writes `H1`, `H2`, `BUF` and `FILL` and nothing else (R104). -/
theorem absorb_frame (s : State) (bs : List Byte) :
    ∃ h1 h2 buf fill, absorb s bs = { s with h1 := h1, h2 := h2, buf := buf, fill := fill } := by
  induction bs generalizing s with
  | nil => exact ⟨s.h1, s.h2, s.buf, s.fill, rfl⟩
  | cons b bs ih =>
    obtain ⟨h1, h2, buf, fill, e⟩ := absorbByte_frame s b
    obtain ⟨g1, g2, guf, gill, e'⟩ := ih (absorbByte s b)
    exact ⟨g1, g2, guf, gill, by rw [absorb_cons, e', e]⟩

/-! ## The loops of `TRAIN` and `QUERY` -/

/-- The loop of `TRAIN` writes `IDX` and `MEM` and nothing else (R133). -/
theorem trainFrom_frame (n i : Nat) (s t : State) (h : trainFrom n i s = .ok t) :
    t = { s with idx := t.idx, mem := t.mem } := by
  induction n generalizing i s with
  | zero => simp only [trainFrom, Except.ok.injEq] at h; subst h; rfl
  | succ n ih =>
    simp only [trainFrom] at h
    split at h
    · cases h
    · split at h
      · cases h
      · next u hu =>
        rw [ih _ _ h, ((bitSet_eq_ok _ _ _).1 hu).2]

/-- The loop of `QUERY` writes `IDX` and `PROBES` and nothing else (R134). -/
theorem queryFrom_frame (n i : Nat) (s t : State) (hit : Bool) (h : queryFrom n i s = .ok (hit, t)) :
    t = { s with idx := t.idx, probes := t.probes } := by
  induction n generalizing i s with
  | zero => simp only [queryFrom, Except.ok.injEq, Prod.mk.injEq] at h; obtain ⟨-, rfl⟩ := h; rfl
  | succ n ih =>
    simp only [queryFrom] at h
    split at h
    · cases h
    · split at h
      · cases h
      · split at h
        · simp only [Except.ok.injEq, Prod.mk.injEq] at h
          obtain ⟨-, rfl⟩ := h
          rfl
        · have h1 := ih _ _ h
          exact h1

end Sys2Proof.Machine
end

