-- ==== Sys2Proof/Laws/Exec.lean ====
section
/-! SUPPORT. One inversion lemma per command: if its meaning answers a next state, that state is a refusal while faulted, a raise
of the command, or the command's own effect. -/

namespace Sys2Proof.Machine

open Sys2Proof.Safety

/-- The two ways a command can leave every element but `ERR` and `ERRCMD` alone: the refusal while faulted (R164) and a
raise (R163). -/
def TurnedAway (s t : State) (head : BitVec 16) : Prop :=
  (s.err ≠ 0 ∧ t = respond s 0x7F#8 0) ∨ (s.err = 0 ∧ ∃ e, t = raise s e head)

theorem turnedAway_raise (s : State) (e : CmdError) (head : BitVec 16) (h : s.err = 0) :
    TurnedAway s (raise s e head) head := .inr ⟨h, e, rfl⟩

/-- An illegal word turns the command away, whatever the state (R75, R164). -/
theorem turnedAway_illegalWord (s : State) (head : BitVec 16) : TurnedAway s (illegalWord head s) head := by
  unfold illegalWord
  by_cases h : s.err = 0
  · rw [if_neg (by simp [faulted, h])]; exact turnedAway_raise s _ head h
  · rw [if_pos ((faulted_iff s).2 h)]; exact .inl ⟨h, rfl⟩

/-- A meaning that begins with the faulted test: refused, or its body on a core that is not faulted (R162). -/
theorem whenReady_cases (s t : State) (body : Result) (head : BitVec 16) (h : whenReady s body = .next t) :
    TurnedAway s t head ∨ (s.err = 0 ∧ body = .next t) := by
  by_cases he : s.err = 0
  · rw [whenReady_of_err_zero _ _ he] at h; exact .inr ⟨he, h⟩
  · rw [whenReady_of_err_ne _ _ he] at h
    cases h
    exact .inl (.inl ⟨he, rfl⟩)

theorem execRdreg_cases (rn : BitVec 8) (s t : State) (h : execRdreg rn s = .next t) :
    (regOfNumber rn = none ∧ TurnedAway s t (commandHead (.rdreg rn))) ∨
    (∃ name, regOfNumber rn = some name ∧ t = respond s 0 ((regValue s name).setWidth 128)) := by
  unfold execRdreg at h
  split at h
  · next name hn => cases h; exact .inr ⟨name, hn, rfl⟩
  · next hn => cases h; exact .inl ⟨hn, turnedAway_illegalWord s _⟩

theorem execErrclr_eq (s : State) : execErrclr s = .next (respond (clearError s) 0 0) := rfl

theorem execBget_cases (idx : Word) (s t : State) (h : execBget idx s = .next t) :
    TurnedAway s t (commandHead (.bget idx)) ∨
    (s.err = 0 ∧ s.fphase ≠ .unconf ∧ idx.toNat < 64 * s.awords.toNat ∧ indexInside s idx ∧
      t = respond s 0 (if filterBit s idx.toNat then 1#128 else 0#128)) := by
  rcases whenReady_cases s t _ (commandHead (.bget idx)) h with h | ⟨he, h⟩
  · exact .inl h
  · split at h
    · cases h; exact .inl (turnedAway_raise _ _ _ he)
    · next hp =>
      split at h
      · cases h; exact .inl (turnedAway_raise _ _ _ he)
      · next hr =>
        split at h
        · next v hv =>
          obtain ⟨hin, rfl⟩ := (bitGet_eq_ok _ _ _).1 hv
          cases h
          refine .inr ⟨he, hp, by omega, hin, ?_⟩
          rw [bitGet_value]
          by_cases hb : filterBit s idx.toNat <;> simp [hb] <;> rfl
        · cases h

theorem execBset_cases (idx : Word) (s t : State) (h : execBset idx s = .next t) :
    TurnedAway s t (commandHead (.bset idx)) ∨
    (s.err = 0 ∧ s.fphase = .training ∧ idx.toNat < 64 * s.awords.toNat ∧ indexInside s idx ∧
      ∃ u, bitSet s idx = .ok u ∧ t = respond u 0 0) := by
  rcases whenReady_cases s t _ (commandHead (.bset idx)) h with h | ⟨he, h⟩
  · exact .inl h
  · split at h
    · cases h; exact .inl (turnedAway_raise _ _ _ he)
    · next hp =>
      split at h
      · cases h; exact .inl (turnedAway_raise _ _ _ he)
      · next hp2 =>
        split at h
        · cases h; exact .inl (turnedAway_raise _ _ _ he)
        · next hr =>
          have hph : s.fphase = .training := by
            cases hc : s.fphase <;> simp_all
          split at h
          · next u hu =>
            cases h
            exact .inr ⟨he, hph, by omega, ((bitSet_eq_ok _ _ _).1 hu).1, u, hu, rfl⟩
          · cases h

theorem execHstart_cases (blkonly : Bool) (seed : BitVec 32) (s t : State) (h : execHstart blkonly seed s = .next t) :
    TurnedAway s t (commandHead (.hstart blkonly seed)) ∨
    (s.err = 0 ∧ t = respond
      { s with seed := seed, h1 := seedWord seed, h2 := seedWord seed, blkonly := blkonly
               len := 0, buf := 0, fill := 0, hact := true, dv := false } 0 0) := by
  rcases whenReady_cases s t _ (commandHead (.hstart blkonly seed)) h with h | ⟨he, h⟩
  · exact .inl h
  · cases h; exact .inr ⟨he, rfl⟩

theorem execHpush_cases (n : BitVec 8) (d : BitVec 128) (s t : State) (h : execHpush n d s = .next t) :
    TurnedAway s t (commandHead (.hpush n d)) ∨
    (s.err = 0 ∧ s.hact = true ∧ 1 ≤ n.toNat ∧ n.toNat ≤ 16 ∧ (s.blkonly = true → n.toNat = 16) ∧
      s.len.toNat + n.toNat ≤ 2 ^ 64 - 1 ∧
      t = respond { absorb s (pieceBytes n d) with len := s.len + n.setWidth 64 } 0 0) := by
  unfold execHpush at h
  simp only at h
  split at h
  · cases h; exact .inl (turnedAway_illegalWord _ _)
  · next hn =>
    rcases whenReady_cases s t _ (commandHead (.hpush n d)) h with h | ⟨he, h⟩
    · exact .inl h
    · split at h
      · cases h; exact .inl (turnedAway_raise _ _ _ he)
      · next ha =>
        split at h
        · cases h; exact .inl (turnedAway_raise _ _ _ he)
        · next hb =>
          split at h
          · cases h; exact .inl (turnedAway_raise _ _ _ he)
          · next hl =>
            cases h
            refine .inr ⟨he, by simpa using ha, by omega, by omega, fun hk => ?_, by omega, rfl⟩
            by_contra hne
            exact hb ⟨hk, hne⟩

theorem execHfin_cases (s t : State) (h : execHfin s = .next t) :
    TurnedAway s t (commandHead .hfin) ∨
    (s.err = 0 ∧ s.hact = true ∧ ∃ h1 h2 : Word, t = respond
      { s with h1 := h1, h2 := h2, buf := 0, fill := 0, hact := false, dv := true } 0 (h2 ++ h1) ∧
      (h1, h2) = finalize (tailFold s.h1 s.h2 s.buf s.fill.toNat).1 (tailFold s.h1 s.h2 s.buf s.fill.toNat).2 s.len) := by
  rcases whenReady_cases s t _ (commandHead .hfin) h with h | ⟨he, h⟩
  · exact .inl h
  · split at h
    · cases h; exact .inl (turnedAway_raise _ _ _ he)
    · next ha =>
      cases h
      exact .inr ⟨he, by simpa using ha, _, _, rfl, rfl⟩

theorem execDload_cases (h1 h2 : Word) (s t : State) (h : execDload h1 h2 s = .next t) :
    TurnedAway s t (commandHead (.dload h1 h2)) ∨
    (s.err = 0 ∧ s.hact = false ∧ t = respond { s with h1 := h1, h2 := h2, dv := true } 0 0) := by
  rcases whenReady_cases s t _ (commandHead (.dload h1 h2)) h with h | ⟨he, h⟩
  · exact .inl h
  · split at h
    · cases h; exact .inl (turnedAway_raise _ _ _ he)
    · next ha => cases h; exact .inr ⟨he, by simpa using ha, rfl⟩

theorem execDerive_cases (i : BitVec 16) (s t : State) (h : execDerive i s = .next t) :
    TurnedAway s t (commandHead (.derive i)) ∨
    (s.err = 0 ∧ s.fphase ≠ .unconf ∧ s.dv = true ∧ i.toNat < s.k.toNat ∧ s.nbits ≠ 0 ∧
      t = respond { s with idx := deriveValue s.inst.absMin s.h1 s.h2 s.k s.nbits i } 0
        ((deriveValue s.inst.absMin s.h1 s.h2 s.k s.nbits i).setWidth 128)) := by
  rcases whenReady_cases s t _ (commandHead (.derive i)) h with h | ⟨he, h⟩
  · exact .inl h
  · split at h
    · cases h; exact .inl (turnedAway_raise _ _ _ he)
    · next hp =>
      split at h
      · cases h; exact .inl (turnedAway_raise _ _ _ he)
      · next hd =>
        split at h
        · cases h; exact .inl (turnedAway_raise _ _ _ he)
        · next hr =>
          by_cases hn : s.nbits = 0
          · rw [deriveIndex, if_pos hn] at h; cases h
          · rw [deriveIndex_of_ne_zero s i hn] at h
            cases h
            exact .inr ⟨he, hp, by simpa using hd, by omega, hn, rfl⟩

/-- `CFG` on operands the instance can hold (R131), with what the clearing loop does. -/
theorem execCfg_cases (nbits : Word) (k : BitVec 16) (s t : State) (h : execCfg nbits k s = .next t) :
    TurnedAway s t (commandHead (.cfg nbits k)) ∨
    (s.err = 0 ∧ nbits ≠ 0 ∧ allocWords nbits ≤ s.inst.nwords.toNat ∧ k ≠ 0 ∧ k.toNat ≤ s.inst.kMax.toNat ∧
      (BitVec.ofNat 32 (allocWords nbits)).toNat = allocWords nbits ∧
      ∃ m : Memory,
        t = respond
          { s with nbits := nbits, k := k, awords := BitVec.ofNat 32 (allocWords nbits), mem := m
                   fphase := .training, result := false, probes := 0, idx := 0 } 0
          ((BitVec.ofNat 32 (allocWords nbits)).setWidth 128) ∧
        (∀ a, Memory.readByte m a = if a < 8 * allocWords nbits then 0#8 else Memory.readByte s.mem a) ∧
        (Memory.wf s.mem = true → Memory.wf m = true) ∧
        (Memory.within s.mem s.inst.nwords.toNat = true → Memory.within m s.inst.nwords.toNat = true)) := by
  rcases whenReady_cases s t _ (commandHead (.cfg nbits k)) h with h | ⟨he, h⟩
  · exact .inl h
  · split at h
    · cases h; exact .inl (turnedAway_raise _ _ _ he)
    · next hn =>
      split at h
      · cases h; exact .inl (turnedAway_raise _ _ _ he)
      · next hw =>
        split at h
        · cases h; exact .inl (turnedAway_raise _ _ _ he)
        · next hk =>
          split at h
          · cases h; exact .inl (turnedAway_raise _ _ _ he)
          · next hm =>
            have hfit : allocWords nbits ≤ s.inst.nwords.toNat := by omega
            have hexact : (BitVec.ofNat 32 (allocWords nbits)).toNat = allocWords nbits := by
              rw [BitVec.toNat_ofNat]
              apply Nat.mod_eq_of_lt
              have := s.inst.nwords.isLt
              omega
            obtain ⟨m, hc, hb, hwf, hin⟩ := clearWords_spec
              { s with nbits := nbits, k := k, awords := BitVec.ofNat 32 (allocWords nbits) } (allocWords nbits)
              (by simp only [hexact]; exact Nat.le_refl _) hfit
            rw [hc] at h
            cases h
            exact .inr ⟨he, hn, hfit, hk, by omega, hexact, m, rfl, hb, hwf, hin⟩

theorem execSeal_cases (s t : State) (h : execSeal s = .next t) :
    TurnedAway s t (commandHead .sealFilter) ∨
    (s.err = 0 ∧ s.fphase = .training ∧ t = respond { s with fphase := .sealed } 0 0) := by
  rcases whenReady_cases s t _ (commandHead .sealFilter) h with h | ⟨he, h⟩
  · exact .inl h
  · split at h
    · cases h; exact .inl (turnedAway_raise _ _ _ he)
    · next hp => cases h; exact .inr ⟨he, by simpa using hp, rfl⟩

theorem execTrain_cases (s t : State) (h : execTrain s = .next t) :
    TurnedAway s t (commandHead .train) ∨
    (s.err = 0 ∧ s.fphase = .training ∧ s.dv = true ∧
      ∃ u, trainFrom s.k.toNat 0 s = .ok u ∧ t = respond u 0 0) := by
  rcases whenReady_cases s t _ (commandHead .train) h with h | ⟨he, h⟩
  · exact .inl h
  · split at h
    · cases h; exact .inl (turnedAway_raise _ _ _ he)
    · next hp =>
      split at h
      · cases h; exact .inl (turnedAway_raise _ _ _ he)
      · next hp2 =>
        split at h
        · cases h; exact .inl (turnedAway_raise _ _ _ he)
        · next hd =>
          split at h
          · next u hu =>
            cases h
            refine .inr ⟨he, ?_, by simpa using hd, u, hu, rfl⟩
            cases hc : s.fphase <;> simp_all
          · cases h

theorem execQuery_cases (null : Bool) (s t : State) (h : execQuery null s = .next t) :
    TurnedAway s t (commandHead (.query null)) ∨
    (s.err = 0 ∧ s.fphase ≠ .unconf ∧ null = true ∧ t = respond { s with result := false, probes := 0 } 0 0) ∨
    (s.err = 0 ∧ s.fphase ≠ .unconf ∧ null = false ∧ s.dv = true ∧
      ∃ hit u, queryFrom s.k.toNat 0 s = .ok (hit, u) ∧
        t = respond { u with result := hit } 0 (queryAnswer hit u.probes u.idx)) := by
  rcases whenReady_cases s t _ (commandHead (.query null)) h with h | ⟨he, h⟩
  · exact .inl h
  · split at h
    · cases h; exact .inl (turnedAway_raise _ _ _ he)
    · next hp =>
      split at h
      · next hn => cases h; exact .inr (.inl ⟨he, hp, hn, rfl⟩)
      · next hn =>
        split at h
        · cases h; exact .inl (turnedAway_raise _ _ _ he)
        · next hd =>
          split at h
          · next hit u hu =>
            cases h
            exact .inr (.inr ⟨he, hp, by simpa using hn, by simpa using hd, hit, u, hu, rfl⟩)
          · cases h

end Sys2Proof.Machine
end

