-- ==== Sys2Proof/Laws/PerInstr.lean ====
section
/-! SUPPORT. The family EncodeFields: the word `encode` makes of a command holds its opcode, its operands and its head in the
fields R70 gives them. -/

namespace Sys2Proof.Laws.EncodeFields

/-- The fields of the encoded command are the command's (spec/30_encoding.md R70, R73). -/
def Statement (i : Instr) : Prop :=
  opField (encode i) = opcode i ∧ aField (encode i) = smallOperand i ∧ dField (encode i) = largeOperand i ∧
    headField (encode i) = commandHead i

theorem of_any (i : Instr) : Statement i := by
  refine ⟨?_, ?_, ?_, ?_⟩ <;> simp [encode, commandHead]

theorem rdreg (rn : BitVec 8) : Statement (.rdreg rn) := of_any _
theorem errclr : Statement .errclr := of_any _
theorem bget (idx : Word) : Statement (.bget idx) := of_any _
theorem bset (idx : Word) : Statement (.bset idx) := of_any _
theorem hstart (blkonly : Bool) (seed : BitVec 32) : Statement (.hstart blkonly seed) := of_any _
theorem hpush (n : BitVec 8) (d : BitVec 128) : Statement (.hpush n d) := of_any _
theorem hfin : Statement .hfin := of_any _
theorem dload (h1 h2 : Word) : Statement (.dload h1 h2) := of_any _
theorem derive (i : BitVec 16) : Statement (.derive i) := of_any _
theorem cfg (nbits : Word) (k : BitVec 16) : Statement (.cfg nbits k) := of_any _
theorem sealFilter : Statement .sealFilter := of_any _
theorem train : Statement .train := of_any _
theorem query (null : Bool) : Statement (.query null) := of_any _

end Sys2Proof.Laws.EncodeFields
end

