-- ==== Sys2Proof/Tests/Slice0.lean ====
section
/-! SUPPORT. Tests: expected values from the spec's own examples and vectors (spec/95_test_vectors.md and the command rules),
and a witness for the hypotheses of every statement that has some. -/

namespace Sys2Proof.Tests

open Sys2Proof.Machine Sys2Proof.Safety

/-! ## Helpers -/

/-- A next state with a property. -/
def nextIs (r : Result) (p : State → Bool) : Bool :=
  match r with
  | .next t => p t
  | .fault _ => false
  | .refused _ => false

/-- The last response given. -/
def lastIs (t : State) (st : BitVec 8) (r : BitVec 128) : Bool := t.hostOut.getLast? == some { st := st, r := r }

/-- The state after `CFG 100, 3` (R131's example). -/
def filter100 : State :=
  { State.reset with nbits := 100, k := 3, awords := 3, fphase := .training }

/-- `filter100` with the digest of "hello" (vector H8). -/
def hello100 : State :=
  { filter100 with h1 := 0xcbd8a7b341bd9b02#64, h2 := 0x5b1e906a48ae1d19#64, dv := true }

/-- `hello100` after `TRAIN`: `MEM[0] = 0x0000100000000000`, `MEM[1] = 0x0000000000408000` (R133's example). -/
def trained100 : State :=
  { hello100 with mem := [(5, 0x10#8), (9, 0x80#8), (10, 0x40#8)], idx := 44 }

/-- `trained100` with the digest of "world" (vector H11). -/
def world100 : State :=
  { trained100 with h1 := 0x71c5790af0fb84ea#64, h2 := 0xc4e4ecc371358e3a#64 }

/-- A sealed filter. -/
def sealed100 : State := { trained100 with fphase := .sealed }

/-- After `HSTART 0`. -/
def started : State := { State.reset with hact := true }

/-- After `HSTART 0`; `HPUSH 5, "hello"` (R104's example). -/
def pushed : State := { started with len := 5, fill := 5, buf := 0x6F6C6C6568#128 }

/-- After `HSTART.B 0`. -/
def startedRaw : State := { started with blkonly := true }

/-- A faulted core: `TRAIN` sent right after reset. -/
def faultedCore : State := { State.reset with err := 0x02#8, errcmd := 0x5200#16 }

/-- A message of 2^64 - 1 bytes so far. -/
def longMessage : State := { started with len := 0xFFFFFFFFFFFFFFFF#64, fill := 15 }

/-- The core with one event sent. -/
def sent (e : HostEvent) (s : State) : State := { s with hostIn := [e] }

/-! ## Well-formedness -/

theorem test_wellFormed_rejects_register_16 : wellFormed (.rdreg 0x10#8) = false := by decide
theorem test_wellFormed_accepts_register_15 : wellFormed (.rdreg 0x0F#8) = true := by decide
theorem test_wellFormed_rejects_push_of_none : wellFormed (.hpush 0#8 0) = false := by decide
theorem test_wellFormed_rejects_push_of_17 : wellFormed (.hpush 17#8 0) = false := by decide
theorem test_wellFormed_accepts_push_of_1_and_16 :
    wellFormed (.hpush 1#8 0) = true ∧ wellFormed (.hpush 16#8 0) = true := by decide

/-! ## Decoding: words of the spec, and words written out from R73 -/

theorem test_decode_rdreg : decode 0x100F00000000000000000000000000000000#144 = .ok (.rdreg 0x0F#8) := by decide
theorem test_decode_errclr : decode 0x110000000000000000000000000000000000#144 = .ok .errclr := by decide
theorem test_decode_bget : decode 0x200000000000000000000000000000000063#144 = .ok (.bget 99#64) := by decide
theorem test_decode_bset : decode 0x210000000000000000000000000000000046#144 = .ok (.bset 70#64) := by decide
theorem test_decode_hstart :
    decode 0x30010000000000000000000000009747B28C#144 = .ok (.hstart true 0x9747B28C#32) := by decide
theorem test_decode_hpush :
    decode 0x310500000000000000000000006F6C6C6568#144 = .ok (.hpush 5#8 0x6F6C6C6568#128) := by decide
theorem test_decode_hfin : decode 0x320000000000000000000000000000000000#144 = .ok .hfin := by decide
theorem test_decode_dload : decode 0x330000000000000000020000000000000001#144 = .ok (.dload 1#64 2#64) := by decide
theorem test_decode_derive : decode 0x40000000000000000000000000000000FFFF#144 = .ok (.derive 65535#16) := by decide
theorem test_decode_cfg : decode 0x500000000000000000030000000000000064#144 = .ok (.cfg 100#64 3#16) := by decide
theorem test_decode_seal : decode 0x510000000000000000000000000000000000#144 = .ok .sealFilter := by decide
theorem test_decode_train : decode 0x520000000000000000000000000000000000#144 = .ok .train := by decide
theorem test_decode_query : decode 0x530100000000000000000000000000000000#144 = .ok (.query true) := by decide

/-- Vectors E1, E2, E8, E9, E12, E15, E16, E17, E20, E25, E27, E32. -/
theorem test_decode_rejects :
    decode 0x000000000000000000000000000000000000#144 = .error .reservedOpcode ∧
    decode 0xFFFFFFFFFFFFFFFFFFFFFFFFFFFFFFFFFFFF#144 = .error .reservedOpcode ∧
    decode 0x101000000000000000000000000000000000#144 = .error .reservedRegister ∧
    decode 0x100000000000000000000000000000000001#144 = .error .mustBeZero ∧
    decode 0x200000000000000000010000000000000000#144 = .error .mustBeZero ∧
    decode 0x300200000000000000000000000000000000#144 = .error .mustBeZero ∧
    decode 0x300000000000000000000000000100000000#144 = .error .mustBeZero ∧
    decode 0x310000000000000000000000000000000000#144 = .error .badByteCount ∧
    decode 0x311100000000000000000000000000000000#144 = .error .badByteCount ∧
    decode 0x400000000000000000000000000000010000#144 = .error .mustBeZero ∧
    decode 0x500000000000000100000000000000000000#144 = .error .mustBeZero ∧
    decode 0x530200000000000000000000000000000000#144 = .error .mustBeZero := by decide

/-- No two rows of R73 admit one word: where both masks are set, the patterns differ. -/
theorem test_table_rows_do_not_overlap :
    encodingTable.Pairwise fun r q => (r.mask &&& q.mask &&& (r.pat ^^^ q.pat)) ≠ 0 := by decide

/-- The table's row of a command runs as the first instruction after reset. -/
theorem test_withFetchWord_runs_the_word :
    decodeTableWord 144 0x330000000000000000020000000000000001 = some (.dload 1#64 2#64) ∧
    nextIs (step (State.reset.withFetchWord 144 0x330000000000000000020000000000000001))
      (fun t => t.h1 == 1#64 && t.h2 == 2#64 && t.dv && t.hostIn == []) = true := by decide

/-! ## One step per command -/

/-- spec/95_test_vectors.md section 7: `RDREG PARAM` on the reference instance. -/
theorem test_rdreg_param :
    nextIs (exec (.rdreg 0x01#8) State.reset) (fun t => lastIs t 0 0x0040004000000400#128) = true := by decide

/-- Section 2.4, step 10: `STATUS` with `HACT = 1`, `FILL = 1`. -/
theorem test_rdreg_status :
    nextIs (exec (.rdreg 0x02#8) { started with fill := 1 }) (fun t => lastIs t 0 0x24#128) = true := by decide

/-- Section 6: `ERRCLR` leaves the faulted condition. -/
theorem test_errclr : nextIs (exec .errclr faultedCore) (fun t => t.err == 0 && t.errcmd == 0 && lastIs t 0 0) = true := by
  decide

/-- R91: `BGET 192` after `CFG 100, 3` answers `0x07`. -/
theorem test_bget_range :
    nextIs (exec (.bget 192) filter100) (fun t => lastIs t 0x07#8 0 && t.err == 0x07#8 && t.errcmd == 0x2000#16) = true := by
  decide

/-- Section 3.2: bit 86 of the trained filter is set and its neighbour is not. -/
theorem test_bget_bit :
    nextIs (exec (.bget 86) trained100) (fun t => lastIs t 0 1) = true ∧
    nextIs (exec (.bget 87) trained100) (fun t => lastIs t 0 0) = true := by decide

/-- R92: `BSET 70` after `CFG 100, 3` makes `MEM[1] = 0x40`. -/
theorem test_bset : nextIs (exec (.bset 70) filter100) (fun t => Memory.readWord t.mem 1 == 0x40#64) = true := by decide

/-- Section 6: on a sealed filter `E_SEALED` wins over `E_RANGE`. -/
theorem test_bset_sealed :
    nextIs (exec (.bset 0xFFFFFFFFFFFFFFFF#64) sealed100) (fun t => lastIs t 0x06#8 0 && t.mem == sealed100.mem) = true := by
  decide

/-- R101: the seed never sign-extends. -/
theorem test_hstart_zero_extends :
    nextIs (exec (.hstart false 0x80000000#32) pushed)
      (fun t => t.h1 == 0x0000000080000000#64 && t.h2 == t.h1 && t.fill == 0 && t.len == 0 && t.hact && !t.dv) = true := by
  decide

/-- R104's example. -/
theorem test_hpush_hello :
    nextIs (exec (.hpush 5#8 0x6F6C6C6568#128) started)
      (fun t => t.fill == 5 && t.len == 5 && t.buf == 0x6F6C6C6568#128 && t.h1 == 0) = true := by decide

/-- Section 2.4: after ten bytes, a piece of sixteen straddles the block boundary. -/
theorem test_hpush_straddles :
    nextIs (exec (.hpush 16#8 0x6F67206C6C6120726F6620656D697420#128)
        { started with len := 10, fill := 10, buf := 0x65687420736920776F4E#128 })
      (fun t => t.h1 == 0x3A416A7D4E57015F#64 && t.fill == 10 && t.buf == 0x6F67206C6C6120726F66#128) = true := by
  decide

/-- R107's example: the digest of "hello". -/
theorem test_hfin_hello :
    nextIs (exec .hfin pushed)
      (fun t => lastIs t 0 0x5b1e906a48ae1d19cbd8a7b341bd9b02#128 && t.dv && !t.hact && t.buf == 0) = true := by decide

/-- Section 6: `DLOAD` while a message is active. -/
theorem test_dload_active : nextIs (exec (.dload 5 0) started) (fun t => lastIs t 0x02#8 0 && t.h1 == 0) = true := by decide

/-- R121's example: the most negative `t`, with both values of `ABSMIN_MAGIC`. -/
theorem test_derive_most_negative :
    nextIs (exec (.derive 0) { hello100 with h1 := 0x8000000000000000#64, h2 := 0, k := 1, nbits := 1000, awords := 17 })
      (fun t => t.idx == 808#64) = true ∧
    nextIs (exec (.derive 0)
      { hello100 with h1 := 0x8000000000000000#64, h2 := 0, k := 1, nbits := 1000, awords := 17
                      inst := { Config.reference with absMin := .saturate } }) (fun t => t.idx == 807#64) = true := by decide

/-- R121: `i = K` raises `E_RANGE`. -/
theorem test_derive_range : nextIs (exec (.derive 3) hello100) (fun t => lastIs t 0x07#8 0 && t.idx == 0) = true := by decide

/-- R131's example. -/
theorem test_cfg :
    nextIs (exec (.cfg 100 3) sealed100)
      (fun t => lastIs t 0 3 && t.awords == 3 && t.fphase == .training && t.mem == [] && t.dv) = true := by decide

/-- Vectors G13 to G15 and G10: the size check comes before the count check and never wraps. -/
theorem test_cfg_errors :
    nextIs (exec (.cfg 65473 65) State.reset) (fun t => lastIs t 0x03#8 0) = true ∧
    nextIs (exec (.cfg 0xFFFFFFFFFFFFFFFF#64 1) State.reset) (fun t => lastIs t 0x03#8 0) = true ∧
    nextIs (exec (.cfg 100 65) State.reset) (fun t => lastIs t 0x04#8 0 && t.fphase == .unconf) = true := by decide

/-- Vector F5. -/
theorem test_seal : nextIs (exec .sealFilter filter100) (fun t => t.fphase == .sealed) = true ∧
    nextIs (exec .sealFilter sealed100) (fun t => lastIs t 0x02#8 0) = true := by decide

/-- R133's example. -/
theorem test_train : nextIs (exec .train hello100) (fun t => t.mem == trained100.mem && t.idx == 44#64) = true := by decide

/-- Section 6: sealed and without digest, `E_SEALED` wins. -/
theorem test_train_sealed : nextIs (exec .train { sealed100 with dv := false }) (fun t => lastIs t 0x06#8 0) = true := by
  decide

/-- R134's examples: "hello" hits, "world" misses at its first index. -/
theorem test_query_hit_and_miss :
    nextIs (exec (.query false) trained100) (fun t => lastIs t 0 0x000000000000002C0000000000030001#128 && t.result) = true ∧
    nextIs (exec (.query false) world100)
      (fun t => lastIs t 0 0x000000000000003A0000000000010000#128 && t.probes == 1 && !t.result) = true := by decide

/-- Program P1, step 15: `QUERY.NULL` keeps `IDX`. -/
theorem test_query_null :
    nextIs (exec (.query true) { world100 with idx := 58, probes := 1 })
      (fun t => lastIs t 0 0 && t.idx == 58#64 && t.probes == 0) = true := by decide

/-! ## The faulted condition, the step and the reset event -/

/-- Section 6: an illegal word while faulted is answered `0x7F`; not faulted, `0x01`, and `ERRCMD` is its `{op, a}`. -/
theorem test_illegal_word :
    nextIs (step (sent (.command 0#144) faultedCore)) (fun t => lastIs t 0x7F#8 0 && t.err == 0x02#8) = true ∧
    nextIs (step (sent (.command 0#144) State.reset)) (fun t => lastIs t 0x01#8 0 && t.err == 0x01#8 && t.errcmd == 0) = true := by
  decide

/-- Section 6: a legal command and a reserved register while faulted are refused, `RDREG ERR` is not. -/
theorem test_faulted_refusal :
    nextIs (exec (.cfg 5 1) faultedCore) (fun t => lastIs t 0x7F#8 0 && t.fphase == .unconf) = true ∧
    nextIs (step (sent (.command 0x101000000000000000000000000000000000#144) faultedCore))
      (fun t => lastIs t 0x7F#8 0) = true ∧
    nextIs (exec (.rdreg 0x03#8) faultedCore) (fun t => lastIs t 0 2) = true := by decide

/-- Section 7: a reset from any state gives the reset registers. -/
theorem test_reset_event :
    nextIs (step (sent .reset sealed100)) (fun t => t.fphase == .unconf && t.nbits == 0 && t.h1 == 0 && !t.dv) = true := by
  decide

/-- R71: `st` at bits 135 to 128 and `r` at bits 127 to 0, of a register read (`ID`, R33) and of an error. -/
theorem test_response_words :
    nextIs (exec (.rdreg 0x00#8) State.reset)
      (fun t => responsesSent t == [0x000000000000000000000000014D483342#136]) = true ∧
    nextIs (exec .train State.reset)
      (fun t => responsesSent t == [0x0200000000000000000000000000000000#136]) = true := by decide

/-- The core waits while nothing is sent (R191). -/
theorem test_idle : nextIs (step filter100) (fun t => t == filter100) = true := by decide

/-! ## Functions -/

/-- Section 2.3. -/
theorem test_rotl64 : rotl64 0x8000000000000001#64 27 = 0x000000000C000000#64 ∧
    rotl64 0x0123456789ABCDEF#64 33 = 0x13579BDE02468ACF#64 := by decide

/-- Vectors H13, H16 and H25's seed on an empty tail: nine bytes, and one byte after a block. -/
theorem test_hashMessage :
    hashMessage 0 [1, 2, 3, 4, 5, 6, 7, 8, 9] = (0xbf9dbe3fa2269d8e#64, 0xf1031a6fe0cf7da1#64) ∧
    hashMessage 0 [1, 2, 3, 4, 5, 6, 7, 8, 9, 10, 11, 12, 13, 14, 15, 16, 17] =
      (0xf224a4101ea076ab#64, 0x0a50f3f36bc8da86#64) := by decide

/-- Vector V21: the largest multipliers. -/
theorem test_deriveValue :
    deriveValue .negationAsItself 0xFFFFFFFFFFFFFFFF#64 0xFFFFFFFFFFFFFFFF#64 65535#16 0xFFFFFFFFFFFFFFFF#64 65534#16 =
      65535#64 := by decide

/-- R79: the expansion of `INSERT "hello"`. -/
theorem test_expand_insert :
    expand (.insert [0x68, 0x65, 0x6c, 0x6c, 0x6f]) =
      [.hstart false 0, .hpush 5 0x6F6C6C6568#128, .hfin, .train] := by decide

/-- The canonical form: writing zero removes the cell. -/
theorem test_writeByte_canonical :
    Memory.writeByte [(1, 0x22#8), (5, 0x33#8)] 5 0 = [(1, 0x22#8)] ∧
    Memory.writeByte [(1, 0x22#8), (5, 0x33#8)] 3 0x44#8 = [(1, 0x22#8), (3, 0x44#8), (5, 0x33#8)] ∧
    Memory.wf [(5, 0x33#8), (1, 0x22#8)] = false ∧ Memory.wf [(1, 0#8)] = false := by decide

/-! ## Witnesses: states and operands that meet the hypotheses of each statement, clause by clause -/

/-- Every state of the helpers has the invariants. -/
theorem witness_inv_filter100 : Inv filter100 := by
  constructor <;> decide
theorem witness_inv_hello100 : Inv hello100 := by
  constructor <;> decide
theorem witness_inv_trained100 : Inv trained100 := by
  constructor <;> decide
theorem witness_inv_world100 : Inv world100 := by
  constructor <;> decide
theorem witness_inv_sealed100 : Inv sealed100 := by
  constructor <;> decide
theorem witness_inv_reset : Inv State.reset := by
  constructor <;> decide

/-- What `nextIs` says, as an equation. -/
theorem exists_of_nextIs (r : Result) (p : State → Bool) (h : nextIs r p = true) : ∃ t, r = .next t ∧ p t = true := by
  cases r with
  | next t => exact ⟨t, rfl, h⟩
  | fault f => simp [nextIs] at h
  | refused f => simp [nextIs] at h

/-- Every response in the record has status `OK`. -/
def everyOk (t : State) : Bool := t.hostOut.all fun r => r.st == 0x00#8

theorem allOk_of_everyOk (s t : State) (hs : s.hostOut = []) (h : everyOk t = true) : allOk s t := by
  refine ⟨t.hostOut, by simp [hs], fun r hr => ?_⟩
  have := List.all_eq_true.1 h r hr
  simpa using this

theorem witness_DecodeOfEncodeIsTheCommand :
    wellFormed (.rdreg 0x0F#8) = true ∧ wellFormed (.hpush 1#8 0) = true ∧ wellFormed (.hpush 16#8 0) = true := by decide
theorem witness_EncodeOfDecodeIsTheWord :
    decode 0x31010000000000000000000000000000FF61#144 = .ok (.hpush 1#8 0xFF61#128) := by decide
theorem witness_LegalWordsAreThoseOfTheTable :
    (∃ r ∈ encodingTable, r.mnemonic = "HPUSH" ∧ r.admits 0x311000000000000000000000000000000000#144 = true ∧
      r.admits 0x311100000000000000000000000000000000#144 = false) ∧
    decode 0x100F00000000000000000000000000000000#144 = .ok (.rdreg 0x0F#8) ∧
    decode 0x20000000000000000000FFFFFFFFFFFFFFFF#144 = .ok (.bget 0xFFFFFFFFFFFFFFFF#64) ∧
    decode 0x21000000000000000000FFFFFFFFFFFFFFFF#144 = .ok (.bset 0xFFFFFFFFFFFFFFFF#64) ∧
    decode 0x3001000000000000000000000000FFFFFFFF#144 = .ok (.hstart true 0xFFFFFFFF#32) ∧
    decode 0x311000000000000000000000000000000000#144 = .ok (.hpush 16#8 0) ∧
    decode 0x330000000000000000020000000000000001#144 = .ok (.dload 1 2) ∧
    decode 0x40000000000000000000000000000000FFFF#144 = .ok (.derive 0xFFFF#16) ∧
    decode 0x5000000000000000FFFFFFFFFFFFFFFFFFFF#144 = .ok (.cfg 0xFFFFFFFFFFFFFFFF#64 0xFFFF#16) ∧
    decode 0x530100000000000000000000000000000000#144 = .ok (.query true) := by decide
theorem witness_LanesAtAndAboveCountAreIgnored :
    (∀ j, j < (1#8).toNat → byteLane 0x61#128 j = byteLane 0xFFFFFFFFFFFFFFFFFFFFFFFFFFFFFF61#128 j) ∧
    (0x61#128 ≠ 0xFFFFFFFFFFFFFFFFFFFFFFFFFFFFFF61#128) := by decide
theorem witness_PiecesRejoinToTheMessage :
    cutPieces 17 (List.replicate 17 0x61#8) = [List.replicate 16 0x61#8, [0x61#8]] := by decide
theorem witness_StepRunsTheDecodedCommand :
    (sent (.command 0x320000000000000000000000000000000000#144) pushed).hostIn =
      [.command 0x320000000000000000000000000000000000#144] ∧
    decode 0x320000000000000000000000000000000000#144 = .ok .hfin := by decide
theorem witness_StepOnEncodedWordIsExec :
    (sent (.command (encode (.rdreg 0x10#8))) pushed).hostIn = [.command (encode (.rdreg 0x10#8))] := by decide
theorem witness_IllegalWordRaisesIllegal :
    (sent (.command 0x54#144) filter100).hostIn = [.command 0x54#144] ∧
    decode 0x54#144 = .error .reservedOpcode ∧ filter100.err = 0 := by decide
theorem witness_StepWithNothingSentHoldsTheState : filter100.hostIn = [] := by decide
theorem witness_ResetEventZeroesEveryElement : (sent .reset sealed100).hostIn = [.reset] := by decide
theorem witness_ParamPacksTheInstance : step filter100 = .next filter100 := by rfl
theorem witness_RdregAnswersEachRegister :
    0x0F < (0x10#8).toNat ∧ faultedCore.err ≠ 0 ∧ State.reset.err = 0 := by decide
theorem witness_BgetAnswersTheBit :
    Inv sealed100 ∧ sealed100.err = 0 ∧ sealed100.fphase ≠ .unconf ∧ (191#64).toNat < 64 * sealed100.awords.toNat :=
  ⟨witness_inv_sealed100, by decide⟩
theorem witness_BsetSetsTheBitAndNothingElse :
    Inv filter100 ∧ filter100.err = 0 ∧ filter100.fphase = .training ∧ (191#64).toNat < 64 * filter100.awords.toNat :=
  ⟨witness_inv_filter100, by decide⟩
theorem witness_BitCommandErrors :
    (State.reset.err = 0 ∧ State.reset.fphase = .unconf) ∧
    (sealed100.err = 0 ∧ sealed100.fphase = .sealed ∧ 64 * sealed100.awords.toNat ≤ (192#64).toNat) ∧
    (filter100.err = 0 ∧ filter100.fphase = .training ∧ 64 * filter100.awords.toNat ≤ (192#64).toNat) := by decide
theorem witness_BitLaws :
    (∃ t u, exec (.bset 70) filter100 = .next t ∧ exec (.bset 6) t = .next u ∧ u.err = 0) ∧
    (∃ t, isCfg .train = false ∧ exec .train hello100 = .next t ∧ filterBit hello100 86 = false ∧
      filterBit t 86 = true) ∧
    (∃ t, exec (.query false) trained100 = .next t ∧ filterBit trained100 86 = true) ∧
    (∃ t, exec (.cfg 100 3) trained100 = .next t ∧ t.err = 0 ∧ 191 < 64 * t.awords.toNat) := by
  refine ⟨⟨_, _, rfl, rfl, by decide⟩, ⟨_, by decide, rfl, by decide⟩, ⟨_, rfl, by decide⟩, ⟨_, rfl, by decide⟩⟩
theorem witness_RotateMovesEachBit : 1 ≤ 63 ∧ 63 ≤ 63 ∧ (rotl64 1#64 63).getLsbD 63 = true := by decide
theorem witness_TailFoldOfTheTailBytes : (List.replicate 15 0xFF#8).length ≤ 15 := by decide
theorem witness_HstartBeginsAMessage : pushed.err = 0 ∧ pushed.hact = true := by decide
theorem witness_HpushAbsorbsTheBytes :
    (started.err = 0 ∧ started.hact = true ∧ (started.blkonly = true → (15#8).toNat = 16) ∧
      started.len.toNat + (15#8).toNat ≤ 2 ^ 64 - 1 ∧ started.fill.toNat + (15#8).toNat < 16) ∧
    (startedRaw.hact = true ∧ startedRaw.blkonly = true ∧ startedRaw.fill.toNat + (16#8).toNat = 16) ∧
    (pushed.hact = true ∧ 16 ≤ pushed.fill.toNat + (16#8).toNat) := by decide
theorem witness_HfinProducesTheDigest : pushed.err = 0 ∧ pushed.hact = true := by decide
theorem witness_DloadLoadsTheDigest : hello100.err = 0 ∧ hello100.hact = false := by decide
theorem witness_HashCommandErrors :
    (State.reset.err = 0 ∧ State.reset.hact = false) ∧
    (startedRaw.err = 0 ∧ startedRaw.hact = true ∧ startedRaw.blkonly = true ∧ (15#8).toNat < 16) ∧
    (longMessage.err = 0 ∧ longMessage.hact = true ∧ (longMessage.blkonly = true → (1#8).toNat = 16) ∧
      2 ^ 64 - 1 < longMessage.len.toNat + (1#8).toNat) := by decide
theorem witness_HashCommandsComputeTheHash :
    filter100.err = 0 ∧ (∀ p ∈ [List.replicate 16 0x61#8], 1 ≤ p.length ∧ p.length ≤ 16) ∧
    (∀ p ∈ [List.replicate 16 0x61#8], p.length = 16) ∧ [List.replicate 16 0x61#8].flatten.length ≤ 2 ^ 64 - 1 := by
  decide
theorem witness_DerivedIndexInIntegers :
    ((0#16).toNat < (1#16).toNat ∧ 1 ≤ (1000#64).toNat) ∧
    0 ≤ (5#64).toInt ∧ (-(2 ^ 63) < (0xFFFFFFFFFFFFFFFF#64).toInt ∧ (0xFFFFFFFFFFFFFFFF#64).toInt < 0) ∧
    (0x8000000000000000#64).toInt = -(2 ^ 63) ∧
    affineSum 5 0 1 0 = 5#64 ∧ affineSum 0xFFFFFFFFFFFFFFFF#64 0 1 0 = 0xFFFFFFFFFFFFFFFF#64 ∧
    affineSum 0x8000000000000000#64 0 1 0 = 0x8000000000000000#64 := by decide
theorem witness_DerivedIndexIsAFilterBit : 1 ≤ (1#64).toNat ∧ 1 ≤ (100#64).toNat := by decide
theorem witness_DeriveAnswersTheIndex :
    Inv hello100 ∧ hello100.err = 0 ∧ hello100.fphase ≠ .unconf ∧ hello100.dv = true ∧
      (2#16).toNat < hello100.k.toNat :=
  ⟨witness_inv_hello100, by decide⟩
theorem witness_DeriveErrors :
    (State.reset.err = 0 ∧ State.reset.fphase = .unconf) ∧
    (filter100.err = 0 ∧ filter100.fphase ≠ .unconf ∧ filter100.dv = false) ∧
    (hello100.err = 0 ∧ hello100.fphase ≠ .unconf ∧ hello100.dv = true ∧ hello100.k.toNat ≤ (3#16).toNat) := by decide
theorem witness_CfgMakesAnEmptyFilter :
    sealed100.err = 0 ∧ 1 ≤ (65472#64).toNat ∧ ((65472#64).toNat + 63) / 64 + 1 ≤ sealed100.inst.nwords.toNat ∧
      1 ≤ (64#16).toNat ∧ (64#16).toNat ≤ sealed100.inst.kMax.toNat := by decide
theorem witness_SealEndsConstruction : filter100.err = 0 ∧ filter100.fphase = .training := by decide
theorem witness_TrainSetsTheDerivedBits :
    Inv hello100 ∧ hello100.err = 0 ∧ hello100.fphase = .training ∧ hello100.dv = true :=
  ⟨witness_inv_hello100, by decide⟩
theorem witness_QueryNullAnswersAbsent : sealed100.err = 0 ∧ sealed100.fphase ≠ .unconf := by decide
theorem witness_QueryHitsWhenAllBitsAreSet :
    Inv trained100 ∧ trained100.err = 0 ∧ trained100.fphase ≠ .unconf ∧ trained100.dv = true ∧
      (∀ i, i < trained100.k.toNat → filterBit trained100 (indexOf trained100 i).toNat = true) :=
  ⟨witness_inv_trained100, by decide⟩
theorem witness_QueryMissesAtTheFirstUnsetBit :
    Inv world100 ∧ world100.err = 0 ∧ world100.fphase ≠ .unconf ∧ world100.dv = true ∧ 0 < world100.k.toNat ∧
      filterBit world100 (indexOf world100 0).toNat = false :=
  ⟨witness_inv_world100, by decide⟩
theorem witness_FilterCommandErrors :
    (State.reset.err = 0 ∧ State.reset.inst.nwords.toNat < ((65473#64).toNat + 63) / 64 + 1) ∧
    (((65472#64).toNat + 63) / 64 + 1 ≤ State.reset.inst.nwords.toNat ∧
      State.reset.inst.kMax.toNat < (65#16).toNat) ∧
    (sealed100.err = 0 ∧ sealed100.fphase ≠ .training) ∧ (State.reset.fphase = .unconf) ∧
    (filter100.err = 0 ∧ filter100.fphase = .training ∧ filter100.dv = false) := by decide
theorem witness_RepeatedSetChangesNothing :
    (∃ t u, Memory.wf filter100.mem = true ∧ exec (.bset 70) filter100 = .next t ∧ exec (.bset 70) t = .next u) ∧
    (∃ t u, Memory.wf hello100.mem = true ∧ exec .train hello100 = .next t ∧ exec .train t = .next u) :=
  ⟨⟨_, _, by decide, rfl, rfl⟩, ⟨_, _, by decide, rfl, rfl⟩⟩
theorem witness_NoFalseNegatives :
    ∃ t, [0x61#8].length ≤ 2 ^ 64 - 1 ∧ filter100.err = 0 ∧ (∀ c ∈ [Instr.sealFilter], isCfg c = false) ∧
      runCommands (expand (.insert [0x61#8]) ++ ([.sealFilter] ++ expand (.contains [0x61#8]))) filter100 = .next t ∧
      allOk filter100 t := by
  obtain ⟨t, h, ho⟩ := exists_of_nextIs
    (runCommands (expand (.insert [0x61#8]) ++ ([.sealFilter] ++ expand (.contains [0x61#8]))) filter100) everyOk (by decide)
  exact ⟨t, by decide, by decide, by decide, h, allOk_of_everyOk _ _ (by decide) ho⟩
theorem witness_EmptyFilterHoldsNothing :
    ∃ t, State.reset.err = 0 ∧
      (∀ c ∈ [Instr.dload 1 2, .sealFilter], isCfg c = false ∧ c ≠ .train ∧ ∀ idx, c ≠ .bset idx) ∧
      runCommands (.cfg 100 3 :: ([.dload 1 2, .sealFilter] ++ [.query false])) State.reset = .next t ∧
      allOk State.reset t := by
  obtain ⟨t, h, ho⟩ := exists_of_nextIs
    (runCommands (.cfg 100 3 :: ([.dload 1 2, .sealFilter] ++ [.query false])) State.reset) everyOk (by decide)
  exact ⟨t, by decide, by simp [isCfg], h, allOk_of_everyOk _ _ (by decide) ho⟩
theorem witness_ErrorsArePrecise :
    ∃ t, sealed100.err = 0 ∧ exec .train sealed100 = .next t ∧ t.err ≠ 0 := ⟨_, by decide, rfl, by decide⟩
theorem witness_FaultedCoreRefusesEveryOtherWord :
    faultedCore.err ≠ 0 ∧ decode 0x101000000000000000000000000000000000#144 = .error .reservedRegister ∧
    decode 0x520000000000000000000000000000000000#144 = .ok .train ∧ acceptedWhileFaulted .train = false := by decide
theorem witness_FirstErrorStaysUntilCleared :
    (∃ t, faultedCore.err ≠ 0 ∧ step (sent (.command (encode .train)) faultedCore) = .next t) ∧
    (∃ t, step (sent (.command (encode .errclr)) faultedCore) = .next t) :=
  ⟨⟨_, by decide, rfl⟩, ⟨_, rfl⟩⟩
theorem witness_OneResponsePerCommand :
    ∃ t, step (sent (.command (encode .train)) sealed100) = .next t := ⟨_, rfl⟩
theorem witness_ResponsesAreWordsOfFormatP :
    (∃ t, step (sent (.command (encode .train)) sealed100) = .next t ∧ t.err ≠ 0) ∧
    (∃ t, step (sent (.command (encode (.rdreg 0))) sealed100) = .next t ∧
      ∃ v ∈ responsesSent t, v.extractLsb' 0 128 ≠ 0#128) ∧
    (∃ t, step (sent (.command (encode .train)) faultedCore) = .next t) ∧
    (∃ t, step sealed100 = .next t) ∧ (∃ t, step (sent .reset sealed100) = .next t) :=
  ⟨⟨_, rfl, by decide⟩, ⟨_, rfl, 0x000000000000000000000000014D483342#136, by decide, by decide⟩, ⟨_, rfl⟩, ⟨_, rfl⟩,
    ⟨_, rfl⟩⟩
theorem witness_PhaseChangesOnlyByTheDiagram :
    ∃ t, step (sent (.command (encode .sealFilter)) filter100) = .next t ∧ t.fphase ≠ filter100.fphase :=
  ⟨_, rfl, by decide⟩
theorem witness_SizingIsWrittenOnlyByCfgAndReset :
    ∃ t, step (sent (.command (encode (.cfg 5 1))) filter100) = .next t ∧ t.nbits ≠ filter100.nbits :=
  ⟨_, rfl, by decide⟩
theorem witness_SealedFilterIsImmutable :
    ∃ t, sealed100.fphase = .sealed ∧ isCfg (.bset 1) = false ∧ exec (.bset 1) sealed100 = .next t :=
  ⟨_, by decide, by decide, rfl⟩
theorem witness_StepKeepsTheInvariants :
    ∃ t, Inv (sent (.command (encode .train)) hello100) ∧ step (sent (.command (encode .train)) hello100) = .next t := by
  refine ⟨_, ?_, rfl⟩
  have h := witness_inv_hello100
  exact { h with }
theorem witness_StepKeepsTheMemoryForm :
    ∃ t, Memory.wf trained100.mem = true ∧ Memory.within trained100.mem trained100.inst.nwords.toNat = true ∧
      step trained100 = .next t := ⟨_, by decide, by decide, rfl⟩
theorem witness_EveryStepAnswers : Inv trained100 := witness_inv_trained100
theorem witness_HiddenMemoryIsUnobservable :
    SameVisible filter100 { filter100 with mem := [(24, 1#8)] } ∧ SameVisible State.reset { State.reset with mem := [(0, 1#8)] } := by
  refine ⟨⟨rfl, ?_⟩, ⟨rfl, ?_⟩⟩
  · intro _
    decide
  · intro h
    exact absurd rfl h
theorem witness_RunsDoNotDependOnMemoryAtReset :
    Memory.wf [(0, 1#8), (8191, 2#8)] = true ∧ Memory.within [(0, 1#8), (8191, 2#8)] Config.reference.nwords.toNat = true ∧
    Memory.wf [] = true ∧ Memory.within [] Config.reference.nwords.toNat = true := by decide

end Sys2Proof.Tests
end

section
/-! The rotation of R10: bit by bit, and as the library's `BitVec.rotateLeft`. -/
namespace Sys2Proof.Machine

/-- R10 forms the rotation from two shifts; for a count below the word size this is the library's rotation. -/
theorem rotl64_eq_rotateLeft (x : Word) {r : Nat} (hr : r < 64) : rotl64 x r = x.rotateLeft r :=
  (BitVec.rotateLeft_eq_rotateLeftAux_of_lt hr).symm

/-- A bit that does not pass the top of the word moves up by `r`: the left shift holds it. -/
theorem getLsbD_rotl64_add (x : Word) {r i : Nat} (h : i + r < 64) :
    (rotl64 x r).getLsbD (i + r) = x.getLsbD i := by
  rw [rotl64_eq_rotateLeft x (by omega), BitVec.getLsbD_rotateLeft_of_le (by omega)]
  have hnot : ¬ i + r < r := by omega
  simp [hnot, h]

/-- A bit that passes the top of the word comes in again at the bottom: the right shift holds it. -/
theorem getLsbD_rotl64_wrap (x : Word) {r i : Nat} (hr : r < 64) (hi : i < 64) (h : 64 ≤ i + r) :
    (rotl64 x r).getLsbD (i + r - 64) = x.getLsbD i := by
  rw [rotl64_eq_rotateLeft x hr, BitVec.getLsbD_rotateLeft_of_le hr]
  have hlow : i + r - 64 < r := by omega
  have hsource : 64 - r + (i + r - 64) = i := by omega
  simp [hlow, hsource]

/-- Settles O21, by whether bit `i` passes the top of the word. -/
theorem rotateMovesEachBit : Obligations.RotateMovesEachBit := by
  intro x r i _ hr hi
  by_cases h : i + r < 64
  · rw [Nat.mod_eq_of_lt h]
    exact getLsbD_rotl64_add x h
  · have hmod : (i + r) % 64 = i + r - 64 := by omega
    rw [hmod]
    exact getLsbD_rotl64_wrap x (by omega) hi (by omega)

end Sys2Proof.Machine
end

section
/-! What one step can do (R162), and the frame of a command that is turned away (R163, R164). -/
namespace Sys2Proof.Machine

open Sys2Proof.Safety

/-- A command that is turned away writes `ERR` and `ERRCMD`, gets its response, and changes nothing else. -/
theorem TurnedAway.eq_frame {s t : State} {head : BitVec 16} (h : TurnedAway s t head) :
    t = { s with err := t.err, errcmd := t.errcmd, hostOut := t.hostOut } := by
  rcases h with ⟨-, rfl⟩ | ⟨-, e, rfl⟩ <;> rfl

/-- A word on a state: its command's meaning, or turned away where it encodes none (R75). -/
theorem runWord_cases {w : CommandWord} {s t : State} (h : runWord w s = .next t) :
    (∃ i, decode w = .ok i ∧ exec i s = .next t) ∨ TurnedAway s t (headField w) := by
  unfold runWord at h
  split at h
  next i hi => exact .inl ⟨i, hi, h⟩
  next => cases h; exact .inr (turnedAway_illegalWord s _)

/-- With nothing sent a step changes nothing (R191). -/
theorem step_of_nothing_sent {s : State} (h : s.hostIn = []) : step s = .next s := by
  simp only [step, nextEvent, h, idle]

theorem step_of_reset_sent {s : State} {rest : List HostEvent} (h : s.hostIn = .reset :: rest) :
    step s = .next (takeReset { s with hostIn := rest }) := by
  simp only [step, nextEvent, h]

theorem step_of_command_sent {s : State} {w : CommandWord} {rest : List HostEvent}
    (h : s.hostIn = .command w :: rest) : step s = runWord w { s with hostIn := rest } := by
  simp only [step, nextEvent, h]

/-- A step waits, takes the reset event, or takes a word, run as a command or turned away (R12, R190, R191). -/
theorem step_cases {s t : State} (h : step s = .next t) :
    (s.hostIn = [] ∧ t = s) ∨
    (∃ rest, s.hostIn = .reset :: rest ∧ t = takeReset { s with hostIn := rest }) ∨
    (∃ w rest, s.hostIn = .command w :: rest ∧
      ((∃ i, decode w = .ok i ∧ exec i { s with hostIn := rest } = .next t) ∨
        TurnedAway { s with hostIn := rest } t (headField w))) := by
  match hin : s.hostIn with
  | [] => rw [step_of_nothing_sent hin] at h; cases h; exact .inl ⟨rfl, rfl⟩
  | .reset :: rest => rw [step_of_reset_sent hin] at h; cases h; exact .inr (.inl ⟨rest, rfl, rfl⟩)
  | .command w :: rest =>
    rw [step_of_command_sent hin] at h
    exact .inr (.inr ⟨w, rest, rfl, runWord_cases h⟩)

end Sys2Proof.Machine
end

section
/-! The tail buffer while bytes are absorbed: its lanes, its fill count and the zero lanes above it (R23, R104). -/
namespace Sys2Proof.Machine

/-- Replacing a byte lane of `BUF` writes that lane and no other (R11). -/
theorem byteLane_setByteLane (v : BitVec 128) (b : Byte) {j i : Nat} (hi : i < 16) :
    byteLane (setByteLane v j b) i = if i = j then b else byteLane v i := by
  apply BitVec.eq_of_getLsbD_eq
  intro x hx
  have hbit : 8 * i + x < 128 := by omega
  have hmask : (0xFF#128).getLsbD (8 * i + x - 8 * j) = decide (8 * i + x - 8 * j < 8) := by
    rw [show (0xFF#128) = BitVec.ofNat 128 (2 ^ 8 - 1) from rfl, BitVec.getLsbD_ofNat, Nat.testBit_two_pow_sub_one]
    simp; omega
  rw [getLsbD_byteLane _ _ _ hx]
  simp only [setByteLane, BitVec.getLsbD_or, BitVec.getLsbD_and, BitVec.getLsbD_not, BitVec.getLsbD_shiftLeft,
    BitVec.getLsbD_setWidth, hmask, hbit]
  rcases Nat.lt_trichotomy i j with hlt | rfl | hgt
  · have hbelow : 8 * i + x < 8 * j := by omega
    simp [hlt.ne, hbelow, getLsbD_byteLane _ _ _ hx]
  · simp [hx]; omega
  · have habove : ¬ 8 * i + x - 8 * j < 8 := by omega
    have hout : b.getLsbD (8 * i + x - 8 * j) = false := BitVec.getLsbD_of_ge _ _ (by omega)
    simp [hgt.ne', habove, hout, getLsbD_byteLane _ _ _ hx]

/-- The lanes of `BUF` at and above `FILL` are zero (R23). -/
abbrev TailClear (s : State) : Prop := ∀ j, s.fill.toNat ≤ j → j < 16 → byteLane s.buf j = 0

@[simp] theorem byteLane_zero {n : Nat} (j : Nat) : byteLane (0 : BitVec n) j = 0 := by simp [byteLane]

/-- `FILL` counts the bytes absorbed, modulo the block (R104). -/
theorem absorbByte_fill (s : State) (b : Byte) : (absorbByte s b).fill.toNat = (s.fill.toNat + 1) % 16 := by
  unfold absorbByte
  split
  next hfull => simp [hfull]
  next => simp [BitVec.toNat_add]

theorem absorb_fill (s : State) (bs : List Byte) : (absorb s bs).fill.toNat = (s.fill.toNat + bs.length) % 16 := by
  induction bs generalizing s with
  | nil => rw [absorb_nil]; have := s.fill.isLt; simp; omega
  | cons b bs ih => rw [absorb_cons, ih, absorbByte_fill, List.length_cons]; omega

theorem absorbByte_tailClear {s : State} (b : Byte) (h : TailClear s) : TailClear (absorbByte s b) := by
  intro j hj hlt
  rw [absorbByte_fill] at hj
  unfold absorbByte
  split
  next => exact byteLane_zero j
  next hroom =>
    have hbelow : s.fill.toNat < j := by have := s.fill.isLt; omega
    simp only [byteLane_setByteLane _ _ hlt, hbelow.ne', if_false]
    exact h j hbelow.le hlt

theorem absorb_tailClear {s : State} (bs : List Byte) (h : TailClear s) : TailClear (absorb s bs) := by
  induction bs generalizing s with
  | nil => exact h
  | cons b bs ih => exact ih (absorbByte_tailClear b h)

theorem length_pieceBytes (n : BitVec 8) (d : BitVec 128) : (pieceBytes n d).length = n.toNat := by simp [pieceBytes]

end Sys2Proof.Machine
end

section
/-! The invariants of R41 at reset and under every step: O12, O54, O55. -/
namespace Sys2Proof.Machine

open Sys2Proof.Safety

/-- A core whose elements are those of `State.reset` has the invariants, whatever its parameters, its host's side and a
`MEM` in canonical form inside it. -/
theorem inv_of_reset_elements (c : Config.Instance) (m : Memory) (hostIn : List HostEvent) (hostOut : List Response)
    (draws : Nat) (hform : Memory.wf m = true) (hsize : Memory.within m c.nwords.toNat = true) :
    Inv { State.reset with mem := m, inst := c, hostIn := hostIn, hostOut := hostOut, draws := draws } where
  unconf_iff := ⟨fun _ => rfl, fun _ => rfl⟩
  unconf_sizing _ := ⟨rfl, rfl⟩
  sizing h := absurd rfl h
  indices h := absurd rfl h
  tail j _ _ := byteLane_zero j
  noMessage _ := ⟨rfl, rfl⟩
  message h := absurd h Bool.false_ne_true
  rawBlocks h := absurd h Bool.false_ne_true
  errCodes := Nat.zero_le 8
  errcmdZero _ := rfl
  memForm := hform
  memSize := hsize

theorem inv_takeReset (s : State) : Inv (takeReset s) :=
  inv_of_reset_elements _ _ _ _ _ (Memory.ofCells_spec _ _).1 (Memory.ofCells_spec _ _).2

theorem inv_hostIn {s : State} (h : Inv s) (rest : List HostEvent) : Inv { s with hostIn := rest } := { h with }

theorem inv_respond {s : State} (h : Inv s) (st : BitVec 8) (r : BitVec 128) : Inv (respond s st r) := { h with }

theorem inv_clearError {s : State} (h : Inv s) : Inv (clearError s) :=
  { h with errCodes := Nat.zero_le 8, errcmdZero := fun _ => rfl }

/-- A raise leaves a code of R160 in `ERR`, and no such code is zero (R41 item 7). -/
theorem inv_raise {s : State} (h : Inv s) (e : CmdError) (head : BitVec 16) : Inv (raise s e head) :=
  { h with errCodes := errCode_le e, errcmdZero := fun h0 => absurd h0 (errCode_ne_zero e) }

theorem inv_of_turnedAway {s t : State} {head : BitVec 16} (h : Inv s) (ha : TurnedAway s t head) : Inv t := by
  rcases ha with ⟨-, rfl⟩ | ⟨-, e, rfl⟩
  · exact inv_respond h _ _
  · exact inv_raise h e head

/-- An index below `NBITS` may enter `IDX`. -/
theorem inv_idx {s : State} (h : Inv s) {v : Word} (hv : v.toNat < s.nbits.toNat) : Inv { s with idx := v } :=
  { h with indices := fun hp => ⟨hv, (h.indices hp).2⟩ }

/-- What the deriver answers is below `NBITS` (R122). -/
theorem deriveIndex_lt {s : State} {i : BitVec 16} {v : Word} (h : deriveIndex s i = .ok v) :
    v.toNat < s.nbits.toNat := by
  by_cases hn : s.nbits = 0
  · rw [deriveIndex, if_pos hn] at h; cases h
  · rw [deriveIndex_of_ne_zero s i hn] at h
    cases h
    exact deriveValue_lt _ _ _ _ _ _ hn

theorem inv_bitSet {s u : State} {idx : Word} (h : Inv s) (hu : bitSet s idx = .ok u) : Inv u := by
  obtain ⟨hinside, -⟩ := (bitSet_eq_ok s idx u).1 hu
  obtain ⟨m, hm, -, -, hform, hsize⟩ := bitSet_spec s idx hinside
  rw [hu] at hm
  cases hm
  exact { h with memForm := hform h.memForm, memSize := hsize h.memSize }

/-- Every turn of `TRAIN`'s loop keeps the invariants (R133). -/
theorem inv_trainFrom {n i : Nat} {s t : State} (h : Inv s) (ht : trainFrom n i s = .ok t) : Inv t := by
  induction n generalizing i s with
  | zero => cases ht; exact h
  | succ n ih =>
    simp only [trainFrom] at ht
    split at ht
    next => cases ht
    next v hv =>
      split at ht
      next => cases ht
      next u hu => exact ih (inv_bitSet (inv_idx h (deriveIndex_lt hv)) hu) ht

/-- Every turn of `QUERY`'s loop keeps the invariants: the turns made and still to come are at most `K` (R134). -/
theorem inv_queryFrom {n i : Nat} {s t : State} {hit : Bool} (h : Inv s) (hn : i + n ≤ s.k.toNat)
    (ht : queryFrom n i s = .ok (hit, t)) : Inv t := by
  induction n generalizing i s with
  | zero => cases ht; exact h
  | succ n ih =>
    simp only [queryFrom] at ht
    split at ht
    next => cases ht
    next v hv =>
      have hturn : Inv { s with idx := v, probes := BitVec.ofNat 16 (i + 1) } :=
        { h with indices := fun _ => ⟨deriveIndex_lt hv, by
            show (BitVec.ofNat 16 (i + 1)).toNat ≤ s.k.toNat
            rw [BitVec.toNat_ofNat]
            exact (Nat.mod_le _ _).trans (by omega)⟩ }
      split at ht
      next => cases ht
      next =>
        split at ht
        next => cases ht; exact hturn
        next => exact ih hturn (by show i + 1 + n ≤ s.k.toNat; omega) ht

theorem inv_execHpush {n : BitVec 8} {d : BitVec 128} {s t : State} (h : Inv s) (ht : execHpush n d s = .next t) :
    Inv t := by
  rcases execHpush_cases n d s t ht with ha | ⟨-, hact, -, -, hraw, hlen, rfl⟩
  · exact inv_of_turnedAway h ha
  · have hfill := absorb_fill s (pieceBytes n d)
    have htail := absorb_tailClear (pieceBytes n d) h.tail
    obtain ⟨h1, h2, buf, fill, e⟩ := absorb_frame s (pieceBytes n d)
    rw [length_pieceBytes] at hfill
    rw [e] at hfill htail ⊢
    have hsum : (s.len + n.setWidth 64).toNat = s.len.toNat + n.toNat := by
      rw [BitVec.toNat_add, BitVec.toNat_setWidth]; omega
    obtain ⟨hcount, hdv⟩ := h.message hact
    refine { h with tail := htail, noMessage := ?_, message := fun _ => ⟨?_, hdv⟩, rawBlocks := fun _ hb => ?_ }
    · intro hno
      exact absurd (hno.symm.trans hact) Bool.false_ne_true
    · show fill.toNat = (s.len + n.setWidth 64).toNat % 16
      simp only at hfill
      omega
    · apply BitVec.eq_of_toNat_eq
      rw [show s.fill = 0 from h.rawBlocks hact hb, hraw hb] at hfill
      exact hfill

theorem inv_execCfg {nbits : Word} {k : BitVec 16} {s t : State} (h : Inv s) (ht : execCfg nbits k s = .next t) :
    Inv t := by
  rcases execCfg_cases nbits k s t ht with ha | ⟨-, hn, hfit, hk, hmax, hexact, m, rfl, -, hform, hsize⟩
  · exact inv_of_turnedAway h ha
  · have hk1 : 1 ≤ k.toNat := by bv_omega
    have hn1 : 0 < nbits.toNat := by bv_omega
    exact { h with
      unconf_iff := ⟨fun hp => (nomatch hp), fun h0 => absurd h0 hn⟩
      unconf_sizing := fun hp => (nomatch hp)
      sizing := fun _ => ⟨hexact, hexact.trans_le hfit, hk1, hmax⟩
      indices := fun _ => ⟨hn1, Nat.zero_le _⟩
      memForm := hform h.memForm
      memSize := hsize h.memSize }

/-- Every command keeps the invariants, from any state that has them. -/
theorem inv_exec {c : Instr} {s t : State} (h : Inv s) (ht : exec c s = .next t) : Inv t := by
  cases c with
  | rdreg rn =>
    rcases execRdreg_cases rn s t ht with ⟨-, ha⟩ | ⟨_, -, rfl⟩
    · exact inv_of_turnedAway h ha
    · exact inv_respond h _ _
  | errclr => cases ht; exact inv_respond (inv_clearError h) _ _
  | bget idx =>
    rcases execBget_cases idx s t ht with ha | ⟨-, -, -, -, rfl⟩
    · exact inv_of_turnedAway h ha
    · exact inv_respond h _ _
  | bset idx =>
    rcases execBset_cases idx s t ht with ha | ⟨-, -, -, -, u, hu, rfl⟩
    · exact inv_of_turnedAway h ha
    · exact inv_respond (inv_bitSet h hu) _ _
  | hstart blkonly seed =>
    rcases execHstart_cases blkonly seed s t ht with ha | ⟨-, rfl⟩
    · exact inv_of_turnedAway h ha
    · exact { h with
        tail := fun j _ _ => byteLane_zero j, noMessage := fun _ => ⟨rfl, rfl⟩
        message := fun _ => ⟨rfl, rfl⟩, rawBlocks := fun _ _ => rfl }
  | hpush n d => exact inv_execHpush h ht
  | hfin =>
    rcases execHfin_cases s t ht with ha | ⟨-, -, h1, h2, rfl, -⟩
    · exact inv_of_turnedAway h ha
    · exact { h with
        tail := fun j _ _ => byteLane_zero j, noMessage := fun _ => ⟨rfl, rfl⟩
        message := fun hact => (nomatch hact), rawBlocks := fun _ _ => rfl }
  | dload h1 h2 =>
    rcases execDload_cases h1 h2 s t ht with ha | ⟨-, hidle, rfl⟩
    · exact inv_of_turnedAway h ha
    · exact { h with message := fun hact => absurd (hidle.symm.trans hact) Bool.false_ne_true }
  | derive i =>
    rcases execDerive_cases i s t ht with ha | ⟨-, -, -, -, hn, rfl⟩
    · exact inv_of_turnedAway h ha
    · exact inv_respond (inv_idx h (deriveValue_lt _ _ _ _ _ _ hn)) _ _
  | cfg nbits k => exact inv_execCfg h ht
  | sealFilter =>
    rcases execSeal_cases s t ht with ha | ⟨-, hp, rfl⟩
    · exact inv_of_turnedAway h ha
    · have hconf : s.fphase ≠ .unconf := by rw [hp]; decide
      exact { h with
        unconf_iff := ⟨fun hu => (nomatch hu), fun h0 => absurd (h.unconf_iff.2 h0) hconf⟩
        unconf_sizing := fun hu => (nomatch hu)
        sizing := fun _ => h.sizing hconf
        indices := fun _ => h.indices hconf }
  | train =>
    rcases execTrain_cases s t ht with ha | ⟨-, -, -, u, hu, rfl⟩
    · exact inv_of_turnedAway h ha
    · exact inv_respond (inv_trainFrom h hu) _ _
  | query null =>
    rcases execQuery_cases null s t ht with ha | ⟨-, -, -, rfl⟩ | ⟨-, -, -, -, hit, u, hu, rfl⟩
    · exact inv_of_turnedAway h ha
    · exact { h with indices := fun hp => ⟨(h.indices hp).1, Nat.zero_le _⟩ }
    · exact { inv_queryFrom h (Nat.zero_add _).le hu with }

/-- Settles O12: each element of `State.reset` but `MEM` is written as zero. -/
theorem resetStateIsZero : Obligations.ResetStateIsZero := by
  unfold Obligations.ResetStateIsZero
  decide

/-- Settles O54: the reset state has the reset elements and an empty list for `MEM`. -/
theorem invariantsHoldAtReset : Obligations.InvariantsHoldAtReset :=
  inv_of_reset_elements Config.reference [] [] [] 0 Memory.wf_nil rfl

/-- Settles O55, by what a step can do and by the command it runs. -/
theorem stepKeepsTheInvariants : Obligations.StepKeepsTheInvariants := by
  intro s t h ht
  rcases step_cases ht with ⟨-, rfl⟩ | ⟨rest, -, rfl⟩ | ⟨w, rest, -, ⟨i, -, hi⟩ | ha⟩
  · exact h
  · exact inv_takeReset _
  · exact inv_exec (inv_hostIn h rest) hi
  · exact inv_of_turnedAway (inv_hostIn h rest) ha

end Sys2Proof.Machine
end

section
/-! Two states that differ in hidden words of `MEM` only take every step alike (R42, R58): O58. -/
namespace Sys2Proof.Machine

open Sys2Proof.Safety

/-! ## The two relations -/

/-- Two outcomes the host cannot tell apart: states that differ in hidden words only, or one fault. -/
inductive Alike : Result → Result → Prop
  | next {s t : State} (h : SameVisible s t) : Alike (.next s) (.next t)
  | fault (f : Fault) : Alike (.fault f) (.fault f)

/-- Two computations that meet one fault, or end in related values. -/
inductive AlikeAccess {α : Type} (R : α → α → Prop) : Except Fault α → Except Fault α → Prop
  | ok {a b : α} (h : R a b) : AlikeAccess R (.ok a) (.ok b)
  | error (f : Fault) : AlikeAccess R (.error f) (.error f)

/-- The two ways to be alike are those of O58. -/
theorem alike_iff {r q : Result} : Alike r q ↔
    (∃ s t, r = .next s ∧ q = .next t ∧ SameVisible s t) ∨ (∃ f, r = .fault f ∧ q = .fault f) := by
  constructor
  · rintro (⟨h⟩ | ⟨f⟩)
    · exact .inl ⟨_, _, rfl, rfl, h⟩
    · exact .inr ⟨f, rfl, rfl⟩
  · rintro (⟨s, t, rfl, rfl, h⟩ | ⟨f, rfl, rfl⟩)
    · exact .next h
    · exact .fault f

/-- The second state is the first with another `MEM`, which reads alike below `AWORDS` where a filter exists. -/
theorem sameVisible_iff {s t : State} : SameVisible s t ↔ ∃ m : Memory, t = { s with mem := m } ∧
    (s.fphase ≠ .unconf → ∀ w, w < s.awords.toNat → Memory.readWord s.mem w = Memory.readWord m w) := by
  constructor
  · rintro ⟨hothers, hwords⟩
    exact ⟨t.mem, by rw [← hothers], hwords⟩
  · rintro ⟨m, rfl, hwords⟩
    exact ⟨rfl, hwords⟩

theorem sameVisible_refl (s : State) : SameVisible s s := ⟨rfl, fun _ _ _ => rfl⟩

/-- Both states pass one test, and the branches it leads to are alike. -/
theorem alike_ite {p : Prop} [Decidable p] {a b a' b' : Result} (ha : p → Alike a a') (hb : ¬ p → Alike b b') :
    Alike (if p then a else b) (if p then a' else b') := by
  by_cases hp : p
  · rw [if_pos hp, if_pos hp]; exact ha hp
  · rw [if_neg hp, if_neg hp]; exact hb hp

theorem alike_respond {s t : State} (h : SameVisible s t) (st : BitVec 8) (r : BitVec 128) :
    Alike (.next (respond s st r)) (.next (respond t st r)) := by
  obtain ⟨m, rfl, hwords⟩ := sameVisible_iff.1 h
  exact .next ⟨rfl, hwords⟩

theorem alike_raise {s t : State} (h : SameVisible s t) (e : CmdError) (head : BitVec 16) :
    Alike (.next (raise s e head)) (.next (raise t e head)) := by
  obtain ⟨m, rfl, hwords⟩ := sameVisible_iff.1 h
  exact .next ⟨rfl, hwords⟩

/-- Both states pass a check of the command, or both raise its error. -/
theorem alike_check {p : Prop} [Decidable p] {s t : State} {e : CmdError} {head : BitVec 16} {body body' : Result}
    (h : SameVisible s t) (hb : ¬ p → Alike body body') :
    Alike (if p then .next (raise s e head) else body) (if p then .next (raise t e head) else body') :=
  alike_ite (fun _ => alike_raise h e head) hb

theorem alike_illegalWord {s t : State} (h : SameVisible s t) (head : BitVec 16) :
    Alike (.next (illegalWord head s)) (.next (illegalWord head t)) := by
  obtain ⟨m, rfl, hwords⟩ := sameVisible_iff.1 h
  unfold illegalWord
  rw [apply_ite Host.Outcome.next, apply_ite Host.Outcome.next]
  exact alike_ite (fun _ => alike_respond h _ _) fun _ => alike_raise h _ _

theorem alike_whenReady {s t : State} {body body' : Result} (h : SameVisible s t) (hb : Alike body body') :
    Alike (whenReady s body) (whenReady t body') := by
  obtain ⟨m, rfl, hwords⟩ := sameVisible_iff.1 h
  exact alike_ite (fun _ => alike_respond h _ _) fun _ => hb

/-! ## Accesses to `MEM` -/

/-- A checked read sees only words that exist below `AWORDS`. -/
theorem memRead_of_sameVisible {s t : State} (h : SameVisible s t) (hp : s.fphase ≠ .unconf) (w : Nat) :
    memRead t w = memRead s w := by
  obtain ⟨m, rfl, hwords⟩ := sameVisible_iff.1 h
  have hcheck : checkWord { s with mem := m } w = checkWord s w := rfl
  unfold memRead
  rw [hcheck]
  cases hc : checkWord s w with
  | ok u => rw [hwords hp w ((checkWord_eq_ok s w).1 hc).2]
  | error f => rfl

theorem bitGet_of_sameVisible {s t : State} (h : SameVisible s t) (hp : s.fphase ≠ .unconf) (idx : Word) :
    bitGet t idx = bitGet s idx := by
  unfold bitGet
  rw [memRead_of_sameVisible h hp]

/-- A checked write goes to the same word of both states, and leaves the phase alone. -/
theorem memWrite_alike {s t : State} (h : SameVisible s t) (w : Nat) (v : Word) :
    AlikeAccess (fun a b => a.fphase = s.fphase ∧ SameVisible a b) (memWrite s w v) (memWrite t w v) := by
  obtain ⟨m, rfl, hwords⟩ := sameVisible_iff.1 h
  have hcheck : checkWord { s with mem := m } w = checkWord s w := rfl
  unfold memWrite
  rw [hcheck]
  cases checkWord s w with
  | ok u =>
    refine .ok ⟨rfl, rfl, fun hp x hx => ?_⟩
    simp only [Memory.readWord_writeWord, hwords hp x hx]
  | error f => exact .error f

theorem bitSet_alike {s t : State} (h : SameVisible s t) (hp : s.fphase ≠ .unconf) (idx : Word) :
    AlikeAccess (fun a b => a.fphase = s.fphase ∧ SameVisible a b) (bitSet s idx) (bitSet t idx) := by
  unfold bitSet
  rw [memRead_of_sameVisible h hp]
  cases memRead s (wordIndex idx) with
  | ok v => exact memWrite_alike h _ _
  | error f => exact .error f

theorem deriveIndex_of_sameVisible {s t : State} (h : SameVisible s t) (i : BitVec 16) :
    deriveIndex t i = deriveIndex s i := by
  obtain ⟨m, rfl, -⟩ := sameVisible_iff.1 h
  rfl

/-! ## The loops -/

theorem sameVisible_idx {s t : State} (h : SameVisible s t) (v : Word) :
    SameVisible { s with idx := v } { t with idx := v } := by
  obtain ⟨m, rfl, hwords⟩ := sameVisible_iff.1 h
  exact ⟨rfl, hwords⟩

theorem trainFrom_alike {n i : Nat} {s t : State} (h : SameVisible s t) (hp : s.fphase ≠ .unconf) :
    AlikeAccess SameVisible (trainFrom n i s) (trainFrom n i t) := by
  induction n generalizing i s t with
  | zero => exact .ok h
  | succ n ih =>
    simp only [trainFrom, deriveIndex_of_sameVisible h]
    cases deriveIndex s (BitVec.ofNat 16 i) with
    | error f => exact .error f
    | ok v =>
      have hset := bitSet_alike (sameVisible_idx h v) hp v
      revert hset
      dsimp only
      generalize bitSet { s with idx := v } v = a
      generalize bitSet { t with idx := v } v = b
      rintro (⟨hphase, hu⟩ | ⟨f⟩)
      · exact ih hu (by rw [hphase]; exact hp)
      · exact .error f

/-- `QUERY`'s loop reads only, so the two runs go side by side to the same answer (R134). -/
theorem queryFrom_alike {n i : Nat} {s t : State} (h : SameVisible s t) (hp : s.fphase ≠ .unconf) :
    AlikeAccess (fun a b => a.1 = b.1 ∧ SameVisible a.2 b.2) (queryFrom n i s) (queryFrom n i t) := by
  induction n generalizing i s t with
  | zero => exact .ok ⟨rfl, h⟩
  | succ n ih =>
    simp only [queryFrom, deriveIndex_of_sameVisible h]
    cases deriveIndex s (BitVec.ofNat 16 i) with
    | error f => exact .error f
    | ok v =>
      have hturn : SameVisible { s with idx := v, probes := BitVec.ofNat 16 (i + 1) }
          { t with idx := v, probes := BitVec.ofNat 16 (i + 1) } := by
        obtain ⟨m, rfl, hwords⟩ := sameVisible_iff.1 h
        exact ⟨rfl, hwords⟩
      simp only [bitGet_of_sameVisible hturn hp]
      cases bitGet { s with idx := v, probes := BitVec.ofNat 16 (i + 1) } v with
      | error f => exact .error f
      | ok b =>
        by_cases hb : b = 0
        · simp only [if_pos hb]; exact .ok ⟨rfl, hturn⟩
        · simp only [if_neg hb]; exact ih hturn hp

/-- Absorbing bytes neither reads nor writes `MEM` (R104). -/
theorem absorb_withMem (s : State) (m : Memory) (bs : List Byte) :
    absorb { s with mem := m } bs = { absorb s bs with mem := m } := by
  induction bs generalizing s with
  | nil => rfl
  | cons b bs ih =>
    have hbyte : absorbByte { s with mem := m } b = { absorbByte s b with mem := m } := by
      unfold absorbByte
      by_cases hfull : s.fill.toNat + 1 = 16
      · simp only [if_pos hfull]
      · simp only [if_neg hfull]
    rw [absorb_cons, absorb_cons, hbyte, ih]

/-! ## The commands that read or write `MEM` -/

theorem execBget_alike (idx : Word) {s t : State} (h : SameVisible s t) : Alike (execBget idx s) (execBget idx t) := by
  obtain ⟨m, rfl, hwords⟩ := sameVisible_iff.1 h
  refine alike_whenReady h (alike_check h fun hp => alike_check h fun _ => ?_)
  rw [bitGet_of_sameVisible h hp]
  cases bitGet s idx with
  | ok v => exact alike_respond h _ _
  | error f => exact .fault f

theorem execBset_alike (idx : Word) {s t : State} (h : SameVisible s t) : Alike (execBset idx s) (execBset idx t) := by
  obtain ⟨m, rfl, hwords⟩ := sameVisible_iff.1 h
  refine alike_whenReady h (alike_check h fun hp => alike_check h fun _ => alike_check h fun _ => ?_)
  have hset := bitSet_alike h hp idx
  revert hset
  generalize bitSet s idx = a
  generalize bitSet { s with mem := m } idx = b
  rintro (⟨-, hu⟩ | ⟨f⟩)
  · exact alike_respond hu _ _
  · exact .fault f

theorem execTrain_alike {s t : State} (h : SameVisible s t) : Alike (execTrain s) (execTrain t) := by
  obtain ⟨m, rfl, hwords⟩ := sameVisible_iff.1 h
  refine alike_whenReady h (alike_check h fun hp => alike_check h fun _ => alike_check h fun _ => ?_)
  have hloop := trainFrom_alike (n := s.k.toNat) (i := 0) h hp
  revert hloop
  dsimp only
  generalize trainFrom s.k.toNat 0 s = a
  generalize trainFrom s.k.toNat 0 { s with mem := m } = b
  rintro (⟨hu⟩ | ⟨f⟩)
  · exact alike_respond hu _ _
  · exact .fault f

theorem execQuery_alike (null : Bool) {s t : State} (h : SameVisible s t) :
    Alike (execQuery null s) (execQuery null t) := by
  obtain ⟨m, rfl, hwords⟩ := sameVisible_iff.1 h
  refine alike_whenReady h (alike_check h fun hp => alike_ite (fun _ => .next ⟨rfl, hwords⟩) fun _ =>
    alike_check h fun _ => ?_)
  have hloop := queryFrom_alike (n := s.k.toNat) (i := 0) h hp
  revert hloop
  dsimp only
  generalize queryFrom s.k.toNat 0 s = a
  generalize queryFrom s.k.toNat 0 { s with mem := m } = b
  rintro (@⟨⟨hit, u⟩, ⟨_, v⟩, rfl, hu⟩ | ⟨f⟩)
  · obtain ⟨m', rfl, hwords'⟩ := sameVisible_iff.1 hu
    exact .next ⟨rfl, hwords'⟩
  · exact .fault f

/-- Words whose eight bytes agree are equal. -/
theorem readWord_congr {m m' : Memory} {w : Nat}
    (h : ∀ a, 8 * w ≤ a → a < 8 * w + 8 → Memory.readByte m a = Memory.readByte m' a) :
    Memory.readWord m w = Memory.readWord m' w := by
  apply BitVec.eq_of_getLsbD_eq
  intro i hi
  rw [Memory.getLsbD_readWord _ _ _ hi, Memory.getLsbD_readWord _ _ _ hi, h _ (by omega) (by omega)]

/-- An allocation that fits in `NWORDS` fits in the width of `AWORDS`. -/
theorem toNat_allocWords {c : Config.Instance} {nbits : Word} (h : allocWords nbits ≤ c.nwords.toNat) :
    (BitVec.ofNat 32 (allocWords nbits)).toNat = allocWords nbits := by
  rw [BitVec.toNat_ofNat]
  exact Nat.mod_eq_of_lt (h.trans_lt c.nwords.isLt)

/-- A `CFG` that succeeds clears every word it makes visible (R131), so nothing hidden before shows after it. -/
theorem execCfg_alike (nbits : Word) (k : BitVec 16) {s t : State} (h : SameVisible s t) :
    Alike (execCfg nbits k s) (execCfg nbits k t) := by
  obtain ⟨m, rfl, -⟩ := sameVisible_iff.1 h
  refine alike_whenReady h (alike_check h fun _ => alike_check h fun hfit =>
    alike_check h fun _ => alike_check h fun _ => ?_)
  have hexact := toNat_allocWords (Nat.le_of_not_lt hfit)
  obtain ⟨a, ha, hazero, -⟩ := clearWords_spec
    { s with nbits := nbits, k := k, awords := BitVec.ofNat 32 (allocWords nbits) } (allocWords nbits)
    hexact.ge (Nat.le_of_not_lt hfit)
  obtain ⟨b, hb, hbzero, -⟩ := clearWords_spec
    { s with nbits := nbits, k := k, awords := BitVec.ofNat 32 (allocWords nbits), mem := m } (allocWords nbits)
    hexact.ge (Nat.le_of_not_lt hfit)
  rw [ha, hb]
  refine .next ⟨rfl, fun _ w hw => readWord_congr fun x _ hx => ?_⟩
  have hw' : w < allocWords nbits := hexact ▸ hw
  have hcleared : x < 8 * allocWords nbits := by omega
  exact (hazero x).trans ((if_pos hcleared).trans ((hbzero x).trans (if_pos hcleared)).symm)

/-! ## Every command and every step -/

theorem execHpush_alike (n : BitVec 8) (d : BitVec 128) {s t : State} (h : SameVisible s t) :
    Alike (execHpush n d s) (execHpush n d t) := by
  obtain ⟨m, rfl, hwords⟩ := sameVisible_iff.1 h
  refine alike_ite (fun _ => alike_illegalWord h _) fun _ =>
    alike_whenReady h (alike_check h fun _ => alike_check h fun _ => alike_check h fun _ => ?_)
  obtain ⟨h1, h2, buf, fill, e⟩ := absorb_frame s (pieceBytes n d)
  rw [absorb_withMem s m, e]
  exact .next ⟨rfl, hwords⟩

/-- No register shows `MEM` (R38). -/
theorem regValue_of_sameVisible {s t : State} (h : SameVisible s t) (name : RegName) :
    regValue t name = regValue s name := by
  obtain ⟨m, rfl, -⟩ := sameVisible_iff.1 h
  cases name <;> rfl

/-- The digest is made of elements that both states share (R106, R107). -/
theorem finalize_of_sameVisible {s t : State} (h : SameVisible s t) :
    finalize (tailFold t.h1 t.h2 t.buf t.fill.toNat).1 (tailFold t.h1 t.h2 t.buf t.fill.toNat).2 t.len =
      finalize (tailFold s.h1 s.h2 s.buf s.fill.toNat).1 (tailFold s.h1 s.h2 s.buf s.fill.toNat).2 s.len := by
  rw [← h.others]

theorem execHfin_alike {s t : State} (h : SameVisible s t) : Alike (execHfin s) (execHfin t) := by
  have hleaf (g : Word × Word) : Alike
     (.next (answer { s with h1 := g.1, h2 := g.2, buf := 0, fill := 0, hact := false, dv := true } (g.2 ++ g.1)))
     (.next (answer { t with h1 := g.1, h2 := g.2, buf := 0, fill := 0, hact := false, dv := true } (g.2 ++ g.1))) := by
    obtain ⟨m, rfl, hwords⟩ := sameVisible_iff.1 h
    exact .next ⟨rfl, hwords⟩
  have hact : t.hact = s.hact := by rw [← h.others]
  simp only [execHfin, finalize_of_sameVisible h, hact]
  exact alike_whenReady h (alike_check h fun _ => hleaf _)

/-- No command but `BGET`, `BSET`, `CFG`, `TRAIN` and `QUERY` looks at `MEM`: the others leave it where it is. -/
theorem exec_alike (c : Instr) {s t : State} (h : SameVisible s t) : Alike (exec c s) (exec c t) := by
  obtain ⟨m, e, hwords⟩ := sameVisible_iff.1 h
  cases c with
  | rdreg rn =>
    show Alike (execRdreg rn s) (execRdreg rn t)
    simp only [execRdreg, regValue_of_sameVisible h]
    cases regOfNumber rn with
    | some name => exact alike_respond h _ _
    | none => exact alike_illegalWord h _
  | errclr => subst e; exact .next ⟨rfl, hwords⟩
  | bget idx => exact execBget_alike idx h
  | bset idx => exact execBset_alike idx h
  | hstart blkonly seed => subst e; exact alike_whenReady h (.next ⟨rfl, hwords⟩)
  | hpush n d => exact execHpush_alike n d h
  | hfin => exact execHfin_alike h
  | dload h1 h2 => subst e; exact alike_whenReady h (alike_check h fun _ => .next ⟨rfl, hwords⟩)
  | derive i =>
    subst e
    refine alike_whenReady h (alike_check h fun _ => alike_check h fun _ => alike_check h fun _ => ?_)
    rw [deriveIndex_of_sameVisible h]
    cases deriveIndex s i with
    | ok v => exact alike_respond (sameVisible_idx h v) _ _
    | error f => exact .fault f
  | cfg nbits k => exact execCfg_alike nbits k h
  | sealFilter =>
    subst e
    refine alike_whenReady h (alike_check h fun hp => .next ⟨rfl, fun _ => hwords ?_⟩)
    rw [not_not.1 hp]
    decide
  | train => exact execTrain_alike h
  | query null => exact execQuery_alike null h

theorem runWord_alike (w : CommandWord) {s t : State} (h : SameVisible s t) : Alike (runWord w s) (runWord w t) := by
  unfold runWord
  cases decode w with
  | ok i => exact exec_alike i h
  | error r => exact alike_illegalWord h _

/-- Both states take the same event: nothing, the reset event, after which they are one state, or a word. -/
theorem step_alike {s t : State} (h : SameVisible s t) : Alike (step s) (step t) := by
  have hqueue : t.hostIn = s.hostIn := by rw [← h.others]
  match hin : s.hostIn with
  | [] =>
    rw [step_of_nothing_sent hin, step_of_nothing_sent (hqueue.trans hin)]
    exact .next h
  | .reset :: rest =>
    rw [step_of_reset_sent hin, step_of_reset_sent (hqueue.trans hin)]
    obtain ⟨m, rfl, -⟩ := sameVisible_iff.1 h
    exact .next (sameVisible_refl _)
  | .command w :: rest =>
    rw [step_of_command_sent hin, step_of_command_sent (hqueue.trans hin)]
    obtain ⟨m, rfl, hwords⟩ := sameVisible_iff.1 h
    exact runWord_alike w ⟨rfl, hwords⟩

/-- Settles O58, by the event taken and the command it runs. -/
theorem hiddenMemoryIsUnobservable : Obligations.HiddenMemoryIsUnobservable :=
  fun _ _ h => alike_iff.1 (step_alike h)

end Sys2Proof.Machine
end

section
/-! The word of a `CFG` is the only one that decodes to it (R73). -/
namespace Sys2Proof

theorem ifZero_eq_ok {b : Bool} {i j : Instr} : ifZero b i = .ok j ↔ b = true ∧ i = j := by
  cases b <;> simp [ifZero]

/-- The fields of a word that decodes to a `CFG`: its opcode, its operands, and zero in every other bit (R73). -/
theorem fields_of_decode_cfg {w : CommandWord} {nbits : Word} {k : BitVec 16} (h : decode w = .ok (.cfg nbits k)) :
    opField w = 0x50#8 ∧ aField w = 0 ∧ (dField w).extractLsb' 80 48 = 0 ∧
      (dField w).extractLsb' 0 64 = nbits ∧ (dField w).extractLsb' 64 16 = k := by
  simp only [decode, ite_eq_iff, ifZero_eq_ok, reduceCtorEq, and_false, false_or, or_false, Except.ok.injEq,
    Instr.cfg.injEq, Bool.and_eq_true, beq_iff_eq] at h
  obtain ⟨-, -, -, -, -, -, -, -, -, hop, ⟨ha, hzero⟩, hnbits, hk⟩ := h
  exact ⟨hop, ha, hzero, hnbits, hk⟩

/-- A word that decodes to a `CFG` is the word of that `CFG` (R73). -/
theorem encode_of_decode_cfg {w : CommandWord} {nbits : Word} {k : BitVec 16} (h : decode w = .ok (.cfg nbits k)) :
    encode (.cfg nbits k) = w := by
  obtain ⟨hop, ha, hzero, rfl, rfl⟩ := fields_of_decode_cfg h
  have hd : ((0#48 ++ (dField w).extractLsb' 64 16) ++ (dField w).extractLsb' 0 64 : BitVec 128) = dField w := by
    rw [← show (dField w).extractLsb' 80 48 = 0#48 from hzero,
      BitVec.extractLsb'_append_extractLsb'_eq_extractLsb' (show 80 = 64 + 16 from rfl),
      BitVec.extractLsb'_append_extractLsb'_eq_extractLsb' (show 64 = 0 + 64 from rfl)]
    exact BitVec.extractLsb'_eq_self
  calc encode (.cfg ((dField w).extractLsb' 0 64) ((dField w).extractLsb' 64 16))
      = commandWord 0x50#8 0 ((0#48 ++ (dField w).extractLsb' 64 16) ++ (dField w).extractLsb' 0 64) := rfl
    _ = commandWord (opField w) (aField w) (dField w) := by rw [hop, ha, hd]
    _ = w := commandWord_fields w

end Sys2Proof
end

section
/-! The packed registers `STATUS` and `PARAM` (R34, R37), and what the steps leave alone of the parameters, the sizing
and a sealed filter (R14, R27, R35): O14, O15, O52, O53. -/
namespace Sys2Proof.Machine

open Sys2Proof.Safety

/-! ## Packed registers -/

theorem statusWord_flags (s : State) : (statusWord s).getLsbD 2 = s.hact ∧ (statusWord s).getLsbD 3 = s.dv ∧
    (statusWord s).getLsbD 4 = s.blkonly ∧ (statusWord s).getLsbD 9 = s.result ∧
    (statusWord s).getLsbD 10 = faulted s := by
  simp only [statusWord, flagBit, BitVec.getLsbD_append, BitVec.getLsbD_ofBool]
  exact ⟨rfl, rfl, rfl, rfl, rfl⟩

/-- `FILL` stands above four fields of `STATUS`. -/
theorem statusWord_fill (s : State) : (statusWord s).extractLsb' 5 4 = s.fill := by
  unfold statusWord
  iterate 4 rw [BitVec.extractLsb'_append_eq_of_le (by decide)]
  exact BitVec.extractLsb'_append_eq_right

/-- Nothing but zeros stands above the seven fields of `STATUS`. -/
theorem statusWord_zeros (s : State) : (statusWord s).extractLsb' 11 53 = 0#53 := by
  unfold statusWord
  iterate 7 rw [BitVec.extractLsb'_append_eq_of_le (by decide)]
  exact BitVec.extractLsb'_eq_self

theorem faulted_eq (s : State) : faulted s = decide (s.err ≠ 0) :=
  Bool.eq_iff_iff.2 ((faulted_iff s).trans (decide_eq_true_iff).symm)

/-- Settles O14: each field is found by dropping those packed below it. -/
theorem statusPacksTheFlags : Obligations.StatusPacksTheFlags := by
  intro s
  obtain ⟨hhact, hdv, hblkonly, hresult, hfaulted⟩ := statusWord_flags s
  exact ⟨BitVec.extractLsb'_append_eq_right, hhact, hdv, hblkonly, statusWord_fill s, hresult,
    hfaulted.trans (faulted_eq s), statusWord_zeros s, rfl, rfl, rfl⟩

theorem paramWord_fields (c : Config.Instance) :
    (paramWord c).extractLsb' 0 32 = c.nwords ∧ (paramWord c).extractLsb' 32 16 = c.kMax ∧
    (paramWord c).extractLsb' 48 8 = 0x40#8 ∧ (paramWord c).extractLsb' 56 8 = 0#8 := by
  have habove {start len : Nat} (h : 48 ≤ start) :
      (paramWord c).extractLsb' start len = (0#8 ++ 64#8).extractLsb' (start - 32 - 16) len :=
    (BitVec.extractLsb'_append_eq_of_le (by omega)).trans (BitVec.extractLsb'_append_eq_of_le (by omega))
  refine ⟨BitVec.extractLsb'_append_eq_right, ?_, habove (by decide), habove (by decide)⟩
  exact (BitVec.extractLsb'_append_eq_of_le (by decide)).trans BitVec.extractLsb'_append_eq_right

/-! ## What a command leaves alone -/

/-- What every command but `CFG` leaves alone: the parameters and the sizing, and, where the filter is sealed, `MEM` and
the phase (R27, R35). -/
structure KeepsFilter (s t : State) : Prop where
  inst : t.inst = s.inst
  nbits : t.nbits = s.nbits
  k : t.k = s.k
  awords : t.awords = s.awords
  sealed : s.fphase = .sealed → t.mem = s.mem ∧ t.fphase = .sealed

theorem keepsFilter_of_turnedAway {s t : State} {head : BitVec 16} (h : TurnedAway s t head) : KeepsFilter s t := by
  rw [h.eq_frame]
  exact ⟨rfl, rfl, rfl, rfl, fun hp => ⟨rfl, hp⟩⟩

/-- `BSET`, `TRAIN` and `SEAL` write `MEM` or the phase only in TRAINING, and the other commands but `CFG` write neither. -/
theorem exec_keepsFilter {c : Instr} {s t : State} (hc : isCfg c = false) (h : exec c s = .next t) :
    KeepsFilter s t := by
  cases c with
  | cfg nbits k => exact nomatch hc
  | rdreg rn =>
    rcases execRdreg_cases rn s t h with ⟨-, ha⟩ | ⟨_, -, rfl⟩
    · exact keepsFilter_of_turnedAway ha
    · exact ⟨rfl, rfl, rfl, rfl, fun hp => ⟨rfl, hp⟩⟩
  | errclr => cases h; exact ⟨rfl, rfl, rfl, rfl, fun hp => ⟨rfl, hp⟩⟩
  | bget idx =>
    rcases execBget_cases idx s t h with ha | ⟨-, -, -, -, rfl⟩
    · exact keepsFilter_of_turnedAway ha
    · exact ⟨rfl, rfl, rfl, rfl, fun hp => ⟨rfl, hp⟩⟩
  | bset idx =>
    rcases execBset_cases idx s t h with ha | ⟨-, htraining, -, -, u, hu, rfl⟩
    · exact keepsFilter_of_turnedAway ha
    · rw [((bitSet_eq_ok s idx u).1 hu).2]
      exact ⟨rfl, rfl, rfl, rfl, fun hp => nomatch htraining.symm.trans hp⟩
  | hstart blkonly seed =>
    rcases execHstart_cases blkonly seed s t h with ha | ⟨-, rfl⟩
    · exact keepsFilter_of_turnedAway ha
    · exact ⟨rfl, rfl, rfl, rfl, fun hp => ⟨rfl, hp⟩⟩
  | hpush n d =>
    rcases execHpush_cases n d s t h with ha | ⟨-, -, -, -, -, -, rfl⟩
    · exact keepsFilter_of_turnedAway ha
    · obtain ⟨h1, h2, buf, fill, e⟩ := absorb_frame s (pieceBytes n d)
      rw [e]
      exact ⟨rfl, rfl, rfl, rfl, fun hp => ⟨rfl, hp⟩⟩
  | hfin =>
    rcases execHfin_cases s t h with ha | ⟨-, -, h1, h2, rfl, -⟩
    · exact keepsFilter_of_turnedAway ha
    · exact ⟨rfl, rfl, rfl, rfl, fun hp => ⟨rfl, hp⟩⟩
  | dload h1 h2 =>
    rcases execDload_cases h1 h2 s t h with ha | ⟨-, -, rfl⟩
    · exact keepsFilter_of_turnedAway ha
    · exact ⟨rfl, rfl, rfl, rfl, fun hp => ⟨rfl, hp⟩⟩
  | derive i =>
    rcases execDerive_cases i s t h with ha | ⟨-, -, -, -, -, rfl⟩
    · exact keepsFilter_of_turnedAway ha
    · exact ⟨rfl, rfl, rfl, rfl, fun hp => ⟨rfl, hp⟩⟩
  | sealFilter =>
    rcases execSeal_cases s t h with ha | ⟨-, htraining, rfl⟩
    · exact keepsFilter_of_turnedAway ha
    · exact ⟨rfl, rfl, rfl, rfl, fun hp => nomatch htraining.symm.trans hp⟩
  | train =>
    rcases execTrain_cases s t h with ha | ⟨-, htraining, -, u, hu, rfl⟩
    · exact keepsFilter_of_turnedAway ha
    · rw [trainFrom_frame _ _ _ _ hu]
      exact ⟨rfl, rfl, rfl, rfl, fun hp => nomatch htraining.symm.trans hp⟩
  | query null =>
    rcases execQuery_cases null s t h with ha | ⟨-, -, -, rfl⟩ | ⟨-, -, -, -, hit, u, hu, rfl⟩
    · exact keepsFilter_of_turnedAway ha
    · exact ⟨rfl, rfl, rfl, rfl, fun hp => ⟨rfl, hp⟩⟩
    · rw [queryFrom_frame _ _ _ _ _ hu]
      exact ⟨rfl, rfl, rfl, rfl, fun hp => ⟨rfl, hp⟩⟩

/-- Settles O53: no command but `CFG` changes the sizing, and on a sealed filter none changes `MEM` or the phase. -/
theorem sealedFilterIsImmutable : Obligations.SealedFilterIsImmutable := by
  intro c s t hp hc h
  obtain ⟨-, hnbits, hk, hawords, hsealed⟩ := exec_keepsFilter hc h
  obtain ⟨hmem, hphase⟩ := hsealed hp
  exact ⟨hmem, hnbits, hk, hawords, hphase⟩

theorem isCfg_iff {c : Instr} : isCfg c = true ↔ ∃ nbits k, c = .cfg nbits k := by
  cases c <;> simp [isCfg]

/-- No command changes the parameters (R14; log 3). -/
theorem exec_inst {c : Instr} {s t : State} (h : exec c s = .next t) : t.inst = s.inst := by
  cases hc : isCfg c with
  | false => exact (exec_keepsFilter hc h).inst
  | true =>
    obtain ⟨nbits, k, rfl⟩ := isCfg_iff.1 hc
    rcases execCfg_cases nbits k s t h with ha | ⟨-, -, -, -, -, -, m, rfl, -⟩
    · exact (keepsFilter_of_turnedAway ha).inst
    · rfl

theorem step_inst {s t : State} (h : step s = .next t) : t.inst = s.inst := by
  rcases step_cases h with ⟨-, rfl⟩ | ⟨rest, -, rfl⟩ | ⟨w, rest, -, ⟨i, -, hi⟩ | ha⟩
  · rfl
  · rfl
  · exact (exec_inst hi :)
  · exact (keepsFilter_of_turnedAway ha).inst

/-- Settles O15: the fields of `PARAM` by their places, and the parameters by what a step can do. -/
theorem paramPacksTheInstance : Obligations.ParamPacksTheInstance :=
  ⟨paramWord_fields, by decide, fun _ _ => step_inst⟩

/-- Settles O52, by the event taken and by whether the command it runs is a `CFG`. -/
theorem sizingIsWrittenOnlyByCfgAndReset : Obligations.SizingIsWrittenOnlyByCfgAndReset := by
  intro s t h
  rcases step_cases h with ⟨-, rfl⟩ | ⟨rest, hin, rfl⟩ | ⟨w, rest, hin, ⟨i, hw, hi⟩ | ha⟩
  · exact .inl ⟨rfl, rfl, rfl⟩
  · exact .inr (.inr ⟨rest, hin, rfl, rfl, rfl⟩)
  · cases hc : isCfg i with
    | false =>
      obtain ⟨-, hnbits, hk, hawords, -⟩ := exec_keepsFilter hc hi
      exact .inl ⟨hnbits, hk, hawords⟩
    | true =>
      obtain ⟨nbits, k, rfl⟩ := isCfg_iff.1 hc
      rcases execCfg_cases nbits k _ t hi with ha | ⟨herr, -, -, -, -, hexact, m, rfl, -⟩
      · obtain ⟨-, hnbits, hk, hawords, -⟩ := keepsFilter_of_turnedAway ha
        exact .inl ⟨hnbits, hk, hawords⟩
      · rw [← encode_of_decode_cfg hw] at hin
        exact .inr (.inl ⟨nbits, k, rest, hin, herr, herr, rfl, rfl, hexact⟩)
  · obtain ⟨-, hnbits, hk, hawords, -⟩ := keepsFilter_of_turnedAway ha
    exact .inl ⟨hnbits, hk, hawords⟩

end Sys2Proof.Machine
end

section
/-! The step on a legal word (R60, R162): O7. -/
namespace Sys2Proof.Machine

theorem runWord_of_decode {w : CommandWord} {i : Instr} (h : decode w = .ok i) (s : State) : runWord w s = exec i s := by
  rw [runWord, h]

/-- Settles O7: the step takes the word, and a legal word runs as its command. -/
theorem stepRunsTheDecodedCommand : Obligations.StepRunsTheDecodedCommand := by
  intro s w rest i hin hw
  rw [step_of_command_sent hin, runWord_of_decode hw]

end Sys2Proof.Machine
end

section
/-! Setting bits that are set, by `BitSet`, by the loop of `TRAIN` and by the two commands (R57): O44. -/
namespace Sys2Proof.Machine

open Sys2Proof.Safety

/-! ## `BitSet` -/

/-- Byte lane `j` of a word is its cell `8w + j` (log 1). -/
theorem byteLane_readWord (m : Memory) (w : Nat) {j : Nat} (hj : j < 8) :
    byteLane (Memory.readWord m w) j = Memory.readByte m (8 * w + j) := by
  apply BitVec.eq_of_getLsbD_eq
  intro i hi
  have hcell : (8 * j + i) / 8 = j := by omega
  have hbit : (8 * j + i) % 8 = i := by omega
  rw [getLsbD_byteLane _ _ _ hi, Memory.getLsbD_readWord _ _ _ (by omega), hcell, hbit]

/-- Writing back the word that was read gives the same list, in canonical form. -/
theorem Memory.writeWord_readWord (m : Memory) (w : Nat) (h : Memory.wf m = true) :
    Memory.writeWord m w (Memory.readWord m w) = m := by
  apply Memory.ext _ _ (Memory.wf_writeWord _ _ _ h) h
  intro a
  rw [Memory.readByte_writeWord]
  split
  next ha =>
    have hcell : 8 * w + (a - 8 * w) = a := by omega
    rw [byteLane_readWord m w (by omega), hcell]
  next => rfl

/-- ORing a one into a bit that is one changes nothing. -/
theorem or_shiftLeft_one_of_getLsbD {v : Word} {i : Nat} (h : v.getLsbD i = true) : v ||| (1#64 <<< i) = v := by
  apply BitVec.eq_of_getLsbD_eq
  intro j hj
  by_cases hji : j = i
  · subst hji
    rw [BitVec.getLsbD_or, h, Bool.true_or]
  · have hout : (1#64 <<< i).getLsbD j = false := by simp; omega
    rw [BitVec.getLsbD_or, hout, Bool.or_false]

/-- `BitSet` on a bit that is set changes nothing (R57). -/
theorem bitSet_of_filterBit {s : State} {idx : Word} (hwf : Memory.wf s.mem = true) (hin : indexInside s idx)
    (hset : filterBit s idx.toNat = true) : bitSet s idx = .ok s := by
  have hword : Memory.readWord s.mem (wordIndex idx) ||| (1#64 <<< bitOffset idx) =
      Memory.readWord s.mem (wordIndex idx) := or_shiftLeft_one_of_getLsbD hset
  refine (bitSet_eq_ok s idx s).2 ⟨hin, ?_⟩
  rw [hword, Memory.writeWord_readWord _ _ hwf]

/-- A `BitSet` that is no fault has its index inside, sets its bit, clears none, changes nothing but `MEM` and keeps its
form (R90, R93). -/
theorem bitSet_cases {s u : State} {idx : Word} (h : bitSet s idx = .ok u) :
    indexInside s idx ∧ u = { s with mem := u.mem } ∧
      (∀ j, filterBit u j = (decide (j = idx.toNat) || filterBit s j)) ∧
      (Memory.wf s.mem = true → Memory.wf u.mem = true) ∧
      (Memory.within s.mem s.inst.nwords.toNat = true → Memory.within u.mem u.inst.nwords.toNat = true) := by
  obtain ⟨hin, -⟩ := (bitSet_eq_ok s idx u).1 h
  obtain ⟨m, hm, hbits, -, hwf, hsize⟩ := bitSet_spec s idx hin
  rw [h] at hm
  cases hm
  exact ⟨hin, rfl, hbits, hwf, hsize⟩

/-- R57 for the operation: `BitSet` sent again to the state it left finds the bit set. -/
theorem bitSet_again {s u : State} {idx : Word} (hwf : Memory.wf s.mem = true) (h : bitSet s idx = .ok u) :
    bitSet u idx = .ok u := by
  obtain ⟨hin, hu, hbits, hform, -⟩ := bitSet_cases h
  have hin' : indexInside u idx := by rw [hu]; exact hin
  exact bitSet_of_filterBit (hform hwf) hin' (by simp [hbits])

/-! ## The loop of `TRAIN` -/

theorem trainFrom_succ_eq_ok {n i : Nat} {s t : State} :
    trainFrom (n + 1) i s = .ok t ↔ ∃ v u, deriveIndex s (BitVec.ofNat 16 i) = .ok v ∧
      bitSet { s with idx := v } v = .ok u ∧ trainFrom n (i + 1) u = .ok t := by
  rw [trainFrom]
  cases hv : deriveIndex s (BitVec.ofNat 16 i) with
  | error f => simp
  | ok v => cases hu : bitSet { s with idx := v } v <;> simp [hu]

/-- What writing `IDX` and `BitSet` keep, the loop of `TRAIN` keeps (R133). -/
theorem trainFrom_keeps {P : State → Prop} (hidx : ∀ s v, P s → P { s with idx := v })
    (hset : ∀ s v u, bitSet s v = .ok u → P s → P u) {n i : Nat} {s t : State} (h : trainFrom n i s = .ok t)
    (hs : P s) : P t := by
  induction n generalizing i s with
  | zero => cases h; exact hs
  | succ n ih =>
    obtain ⟨v, u, -, hu, ht⟩ := trainFrom_succ_eq_ok.1 h
    exact ih ht (hset _ v u hu (hidx s v hs))

/-- The loop of `TRAIN` clears no bit (R93). -/
theorem trainFrom_filterBit {n i j : Nat} {s t : State} (h : trainFrom n i s = .ok t) (hj : filterBit s j = true) :
    filterBit t j = true := by
  refine trainFrom_keeps (P := fun s => filterBit s j = true) (fun _ _ hs => hs) (fun s v u hu hs => ?_) h hj
  obtain ⟨-, -, hbits, -⟩ := bitSet_cases hu
  rw [hbits, hs, Bool.or_true]

theorem trainFrom_wf {n i : Nat} {s t : State} (h : trainFrom n i s = .ok t) (hwf : Memory.wf s.mem = true) :
    Memory.wf t.mem = true := by
  refine trainFrom_keeps (P := fun s => Memory.wf s.mem = true) (fun _ _ hs => hs) (fun s v u hu hs => ?_) h hwf
  obtain ⟨-, -, -, hform, -⟩ := bitSet_cases hu
  exact hform hs

/-- The loop run again on the `MEM` it left, from the `IDX` it began with, leaves the state it left: every bit it comes
to is set. -/
theorem trainFrom_again_from_idx {n i : Nat} {s t : State} (hwf : Memory.wf s.mem = true) (h : trainFrom n i s = .ok t) :
    trainFrom n i { t with idx := s.idx } = .ok t := by
  induction n generalizing i s with
  | zero => cases h; rfl
  | succ n ih =>
    have hframe := trainFrom_frame _ _ _ _ h
    obtain ⟨v, u, hv, hu, ht⟩ := trainFrom_succ_eq_ok.1 h
    obtain ⟨hin, hu', hbits, hform, -⟩ := bitSet_cases hu
    have hset : filterBit t v.toNat = true := trainFrom_filterBit ht (by simp [hbits])
    have hrest := ih (hform hwf) ht
    rw [show u.idx = v from congrArg State.idx hu'] at hrest
    refine trainFrom_succ_eq_ok.2 ⟨v, { t with idx := v }, ?_, ?_, hrest⟩
    · rw [hframe]; exact hv
    · have hform' : Memory.wf t.mem = true := trainFrom_wf h hwf
      exact bitSet_of_filterBit (s := { t with idx := v }) hform' (by rw [hframe]; exact hin) hset

/-- R57 for the loop. Where it makes a turn it does not read the `IDX` it begins with; where it makes none it changes
nothing. -/
theorem trainFrom_again {n i : Nat} {s t : State} (hwf : Memory.wf s.mem = true) (h : trainFrom n i s = .ok t) :
    trainFrom n i t = .ok t := by
  cases n with
  | zero => rfl
  | succ n => exact (trainFrom_again_from_idx hwf h :)

/-! ## A command sent again -/

/-- A faulted core answers a meaning that begins with the faulted test and changes nothing (R164). -/
theorem eq_of_whenReady_of_err_ne {s t : State} {body : Result} (he : s.err ≠ 0) (h : whenReady s body = .next t) :
    t = { s with hostOut := t.hostOut } := by
  rw [whenReady_of_err_ne _ _ he] at h
  cases h
  rfl

/-- A command that was turned away has left the core faulted. -/
theorem TurnedAway.err_ne_zero {s t : State} {head : BitVec 16} (h : TurnedAway s t head) : t.err ≠ 0 := by
  rcases h with ⟨he, rfl⟩ | ⟨-, e, rfl⟩
  · exact he
  · exact errCode_ne_zero e

/-- `BSET` where R92's checks pass. -/
theorem execBset_of_bitSet {s u : State} {idx : Word} (he : s.err = 0) (hp : s.fphase = .training)
    (hr : idx.toNat < 64 * s.awords.toNat) (hu : bitSet s idx = .ok u) : execBset idx s = .next (answer u 0) := by
  rw [execBset, whenReady_of_err_zero _ _ he, if_neg (by simp [hp]), if_neg (by simp [hp]), if_neg (by omega), hu]

/-- `TRAIN` where R133's checks pass. -/
theorem execTrain_of_trainFrom {s u : State} (he : s.err = 0) (hp : s.fphase = .training) (hd : s.dv = true)
    (hu : trainFrom s.k.toNat 0 s = .ok u) : execTrain s = .next (answer u 0) := by
  rw [execTrain, whenReady_of_err_zero _ _ he, if_neg (by simp [hp]), if_neg (by simp [hp]), if_neg (by simp [hd]), hu]

/-- `BitSet` does not read the record of responses. -/
theorem bitSet_respond {s u : State} {idx : Word} (h : bitSet s idx = .ok u) (st : BitVec 8) (r : BitVec 128) :
    bitSet (respond s st r) idx = .ok (respond u st r) := by
  obtain ⟨hin, rfl⟩ := (bitSet_eq_ok s idx u).1 h
  exact (bitSet_eq_ok _ _ _).2 ⟨hin, rfl⟩

/-- Nor does the loop of `TRAIN`. -/
theorem trainFrom_respond {n i : Nat} {s t : State} (h : trainFrom n i s = .ok t) (st : BitVec 8) (r : BitVec 128) :
    trainFrom n i (respond s st r) = .ok (respond t st r) := by
  induction n generalizing i s with
  | zero => cases h; rfl
  | succ n ih =>
    obtain ⟨v, u, hv, hu, ht⟩ := trainFrom_succ_eq_ok.1 h
    exact trainFrom_succ_eq_ok.2 ⟨v, respond u st r, hv, bitSet_respond hu st r, ih ht⟩

theorem execBset_again {s t u : State} {idx : Word} (hwf : Memory.wf s.mem = true) (ht : execBset idx s = .next t)
    (hu : execBset idx t = .next u) : u = { t with hostOut := u.hostOut } := by
  rcases execBset_cases idx s t ht with ha | ⟨he, hp, hr, -, b, hb, rfl⟩
  · exact eq_of_whenReady_of_err_ne ha.err_ne_zero hu
  · have hagain := bitSet_respond (bitSet_again hwf hb) 0 0
    obtain ⟨-, hframe, -⟩ := bitSet_cases hb
    rw [hframe] at hu hagain ⊢
    rw [execBset_of_bitSet (s := respond { s with mem := b.mem } 0 0) he hp hr hagain] at hu
    cases hu
    rfl

theorem execTrain_again {s t u : State} (hwf : Memory.wf s.mem = true) (ht : execTrain s = .next t)
    (hu : execTrain t = .next u) : u = { t with hostOut := u.hostOut } := by
  rcases execTrain_cases s t ht with ha | ⟨he, hp, hd, b, hb, rfl⟩
  · exact eq_of_whenReady_of_err_ne ha.err_ne_zero hu
  · have hagain := trainFrom_respond (trainFrom_again hwf hb) 0 0
    have hframe := trainFrom_frame _ _ _ _ hb
    rw [hframe] at hu hagain ⊢
    rw [execTrain_of_trainFrom (s := respond { s with idx := b.idx, mem := b.mem } 0 0) he hp hd hagain] at hu
    cases hu
    rfl

/-- Settles O44: sent again, `BSET` and `TRAIN` find every bit set, or the core faulted. -/
theorem repeatedSetChangesNothing : Obligations.RepeatedSetChangesNothing :=
  ⟨fun _ _ _ _ hwf ht hu => execBset_again hwf ht hu, fun _ _ _ hwf ht hu => execTrain_again hwf ht hu⟩

end Sys2Proof.Machine
end

section
/-! The canonical form of `MEM` and its bound under every command and step, and which commands leave `MEM` alone (R39, R50):
O56. -/
namespace Sys2Proof.Machine

open Sys2Proof.Safety

/-- `MEM` is in canonical form and inside its `NWORDS` words. -/
def MemForm (s : State) : Prop := Memory.wf s.mem = true ∧ Memory.within s.mem s.inst.nwords.toNat = true

theorem memForm_takeReset (s : State) : MemForm (takeReset s) := Memory.ofCells_spec _ _

theorem memForm_congr {s t : State} (hm : t.mem = s.mem) (hi : t.inst = s.inst) : MemForm t ↔ MemForm s := by
  rw [MemForm, MemForm, hm, hi]

theorem memForm_bitSet {s u : State} {idx : Word} (hu : bitSet s idx = .ok u) (h : MemForm s) : MemForm u := by
  obtain ⟨-, -, -, hform, hsize⟩ := bitSet_cases hu
  exact ⟨hform h.1, hsize h.2⟩

theorem TurnedAway.mem_eq {s t : State} {head : BitVec 16} (h : TurnedAway s t head) : t.mem = s.mem := by
  rw [h.eq_frame]

/-- No command but `CFG`, `TRAIN` and `BSET` writes `MEM`. -/
theorem exec_mem {c : Instr} {s t : State} (hcfg : isCfg c = false) (htrain : c ≠ .train) (hbset : ∀ idx, c ≠ .bset idx)
    (h : exec c s = .next t) : t.mem = s.mem := by
  cases c with
  | cfg nbits k => exact nomatch hcfg
  | train => exact absurd rfl htrain
  | bset idx => exact absurd rfl (hbset idx)
  | rdreg rn =>
    rcases execRdreg_cases rn s t h with ⟨-, ha⟩ | ⟨_, -, rfl⟩
    · exact ha.mem_eq
    · rfl
  | errclr => cases h; rfl
  | bget idx =>
    rcases execBget_cases idx s t h with ha | ⟨-, -, -, -, rfl⟩
    · exact ha.mem_eq
    · rfl
  | hstart blkonly seed =>
    rcases execHstart_cases blkonly seed s t h with ha | ⟨-, rfl⟩
    · exact ha.mem_eq
    · rfl
  | hpush n d =>
    rcases execHpush_cases n d s t h with ha | ⟨-, -, -, -, -, -, rfl⟩
    · exact ha.mem_eq
    · obtain ⟨h1, h2, buf, fill, e⟩ := absorb_frame s (pieceBytes n d)
      rw [e]
      rfl
  | hfin =>
    rcases execHfin_cases s t h with ha | ⟨-, -, h1, h2, rfl, -⟩
    · exact ha.mem_eq
    · rfl
  | dload h1 h2 =>
    rcases execDload_cases h1 h2 s t h with ha | ⟨-, -, rfl⟩
    · exact ha.mem_eq
    · rfl
  | derive i =>
    rcases execDerive_cases i s t h with ha | ⟨-, -, -, -, -, rfl⟩
    · exact ha.mem_eq
    · rfl
  | sealFilter =>
    rcases execSeal_cases s t h with ha | ⟨-, -, rfl⟩
    · exact ha.mem_eq
    · rfl
  | query null =>
    rcases execQuery_cases null s t h with ha | ⟨-, -, -, rfl⟩ | ⟨-, -, -, -, hit, u, hu, rfl⟩
    · exact ha.mem_eq
    · rfl
    · rw [queryFrom_frame _ _ _ _ _ hu]
      rfl

theorem memForm_of_turnedAway {s t : State} {head : BitVec 16} (h : MemForm s) (ha : TurnedAway s t head) : MemForm t :=
  (memForm_congr ha.mem_eq (keepsFilter_of_turnedAway ha).inst).2 h

/-- Every command keeps the form of `MEM`: the three that write it by word writes inside it, the others by leaving it alone. -/
theorem memForm_exec {c : Instr} {s t : State} (h : MemForm s) (ht : exec c s = .next t) : MemForm t := by
  by_cases hcfg : isCfg c = true
  · obtain ⟨nbits, k, rfl⟩ := isCfg_iff.1 hcfg
    rcases execCfg_cases nbits k s t ht with ha | ⟨-, -, -, -, -, -, m, rfl, -, hform, hsize⟩
    · exact memForm_of_turnedAway h ha
    · exact ⟨hform h.1, hsize h.2⟩
  by_cases htrain : c = .train
  · subst htrain
    rcases execTrain_cases s t ht with ha | ⟨-, -, -, u, hu, rfl⟩
    · exact memForm_of_turnedAway h ha
    · exact trainFrom_keeps (P := MemForm) (fun _ _ hs => hs) (fun _ _ _ hb hs => memForm_bitSet hb hs) (t := u) hu h
  by_cases hbset : ∃ idx, c = .bset idx
  · obtain ⟨idx, rfl⟩ := hbset
    rcases execBset_cases idx s t ht with ha | ⟨-, -, -, -, u, hu, rfl⟩
    · exact memForm_of_turnedAway h ha
    · exact (memForm_bitSet hu h :)
  have hmem := exec_mem (Bool.eq_false_iff.2 hcfg) htrain (fun idx e => hbset ⟨idx, e⟩) ht
  exact (memForm_congr hmem (exec_inst ht)).2 h

/-- Settles O56, by what a step can do and by the command it runs. -/
theorem stepKeepsTheMemoryForm : Obligations.StepKeepsTheMemoryForm := by
  intro s t hwf hsize ht
  have h : MemForm s := ⟨hwf, hsize⟩
  rcases step_cases ht with ⟨-, rfl⟩ | ⟨rest, -, rfl⟩ | ⟨w, rest, -, ⟨i, -, hi⟩ | ha⟩
  · exact h
  · exact memForm_takeReset _
  · exact memForm_exec (s := { s with hostIn := rest }) h hi
  · exact memForm_of_turnedAway (s := { s with hostIn := rest }) h ha

end Sys2Proof.Machine
end

section
/-! The legal words and the well-formed commands stand for each other one to one (R70, R73, R75): O1, O2, O4. -/
namespace Sys2Proof

/-! ## Parts of a word -/

/-- A part of a part is a part. -/
theorem extractLsb'_extractLsb' {w : Nat} (v : BitVec w) {start len start' len' : Nat} (h : start' + len' ≤ len) :
    (v.extractLsb' start len).extractLsb' start' len' = v.extractLsb' (start + start') len' := by
  apply BitVec.eq_of_getLsbD_eq
  intro i hi
  have hin : start' + i < len := by omega
  simp [hi, hin, Nat.add_assoc]

theorem eq_append_iff {m n : Nat} {v : BitVec (m + n)} {x : BitVec m} {y : BitVec n} :
    v = x ++ y ↔ v.extractLsb' n m = x ∧ v.extractLsb' 0 n = y := by
  constructor
  · rintro rfl
    exact ⟨BitVec.extractLsb'_append_eq_left, BitVec.extractLsb'_append_eq_right⟩
  · rintro ⟨rfl, rfl⟩
    exact BitVec.extractLsb'_append_extractLsb'.symm

/-- A flag operand is bit 0 of `a`, and the other bits of `a` are zero (R73). -/
theorem eq_flagField_iff :
    ∀ {a : BitVec 8} {b : Bool}, a = flagField b ↔ a.extractLsb' 1 7 = 0 ∧ a.getLsbD 0 = b := by
  decide

theorem commandWord_eq_iff {w : CommandWord} {op a : BitVec 8} {d : BitVec 128} :
    commandWord op a d = w ↔ opField w = op ∧ aField w = a ∧ dField w = d := by
  constructor
  · rintro rfl
    simp
  · rintro ⟨rfl, rfl, rfl⟩
    exact commandWord_fields w

theorem encode_eq_iff {w : CommandWord} {i : Instr} :
    encode i = w ↔ opField w = opcode i ∧ aField w = smallOperand i ∧ dField w = largeOperand i :=
  commandWord_eq_iff

/-! ## What `decode` accepts -/

@[simp] theorem wellFormed_rdreg_iff {rn : BitVec 8} : wellFormed (.rdreg rn) = true ↔ rn.toNat ≤ 15 := by
  simp [wellFormed]

@[simp] theorem wellFormed_hpush_iff {n : BitVec 8} {d : BitVec 128} :
    wellFormed (.hpush n d) = true ↔ 1 ≤ n.toNat ∧ n.toNat ≤ 16 := by
  simp [wellFormed]

/-- A word decodes to a command of its own opcode or to none (R72). -/
theorem opcode_of_decode {w : CommandWord} {i : Instr} (h : decode w = .ok i) : opField w = opcode i := by
  cases i
  all_goals
    simp only [decode, ite_eq_iff, ifZero_eq_ok, Except.ok.injEq, reduceCtorEq, and_false, false_or, or_false] at h
    simp only [opcode, h]

/-- On a word with a command's opcode, the tests of `decode` say that the two operands are the command's, part by part,
and that the command is well formed (R73, R75). -/
theorem decode_eq_ok_iff_of_opcode {w : CommandWord} {i : Instr} (hop : opField w = opcode i) :
    decode w = .ok i ↔ wellFormed i = true ∧ aField w = smallOperand i ∧ dField w = largeOperand i := by
  cases i with
  | rdreg rn =>
    by_cases ha : aField w = rn
    · subst ha
      simp [decode, hop, opcode, ite_eq_iff, smallOperand, largeOperand, and_comm]
    · simp [decode, hop, opcode, ite_eq_iff, smallOperand, ha]
  | hpush n d =>
    by_cases ha : aField w = n
    · subst ha
      simp [decode, hop, opcode, ite_eq_iff, smallOperand, largeOperand, Nat.one_le_iff_ne_zero]
    · simp [decode, hop, opcode, ite_eq_iff, smallOperand, ha]
  | _ =>
    simp [decode, hop, opcode, ifZero_eq_ok, wellFormed, smallOperand, largeOperand, eq_flagField_iff,
      eq_append_iff (m := 64) (n := 64), eq_append_iff (m := 96) (n := 32), eq_append_iff (m := 112) (n := 16),
      eq_append_iff (m := 48) (n := 16), extractLsb'_extractLsb', and_assoc, and_comm, and_left_comm]

/-- The legal words are the encodings of the well-formed commands (R73, R75). -/
theorem decode_eq_ok_iff {w : CommandWord} {i : Instr} : decode w = .ok i ↔ wellFormed i = true ∧ encode i = w := by
  rw [encode_eq_iff]
  constructor
  · intro h
    have hop := opcode_of_decode h
    obtain ⟨hwf, ha, hd⟩ := (decode_eq_ok_iff_of_opcode hop).1 h
    exact ⟨hwf, hop, ha, hd⟩
  · rintro ⟨hwf, hop, ha, hd⟩
    exact (decode_eq_ok_iff_of_opcode hop).2 ⟨hwf, ha, hd⟩

/-- Settles O1: the encoding of a well-formed command is the legal word of that command. -/
theorem decodeOfEncodeIsTheCommand : Obligations.DecodeOfEncodeIsTheCommand :=
  fun _ hwf => decode_eq_ok_iff.2 ⟨hwf, rfl⟩

/-- Settles O2: a legal word is the encoding of a well-formed command. -/
theorem encodeOfDecodeIsTheWord : Obligations.EncodeOfDecodeIsTheWord :=
  fun _ _ h => (decode_eq_ok_iff.1 h).symm

/-- Settles O4, by running `decode` on the nine words. -/
theorem specWordsDecode : Obligations.SpecWordsDecode := by
  unfold Obligations.SpecWordsDecode
  decide

end Sys2Proof
end

section
/-! The table of R73, row by row, against `decode`, and the operands of a legal word: O3. -/
namespace Sys2Proof

open Sys2Proof.Machine

/-! ## The masks -/

/-- A mask that leaves the `k` low bits free tests that the bits above them are zero. -/
theorem and_allOnes_shiftLeft_eq_zero_iff {n : Nat} (x : BitVec n) (k : Nat) :
    x &&& (BitVec.allOnes n <<< k) = 0 ↔ x.extractLsb' k (n - k) = 0 := by
  constructor
  · intro h
    apply BitVec.eq_of_getLsbD_eq
    intro i hi
    have hbit := congrArg (BitVec.getLsbD · (k + i)) h
    have hin : k + i < n := by omega
    simpa [hi, hin] using hbit
  · intro h
    apply BitVec.eq_of_getLsbD_eq
    intro i hi
    by_cases hlow : i < k
    · simp [hlow]
    · have hbit := congrArg (BitVec.getLsbD · (i - k)) h
      have hin : i - k < n - k := by omega
      have hsum : k + (i - k) = i := by omega
      simpa [hi, hin, hsum, hlow] using hbit

theorem opField_and (v w : CommandWord) : opField (v &&& w) = opField v &&& opField w := BitVec.extractLsb'_and

theorem aField_and (v w : CommandWord) : aField (v &&& w) = aField v &&& aField w := BitVec.extractLsb'_and

theorem dField_and (v w : CommandWord) : dField (v &&& w) = dField v &&& dField w := BitVec.extractLsb'_and

/-- A row of R73 by what its mask leaves free: the `aFree` low bits of `a` and the `dFree` low bits of `d`. -/
def rowOfFreeBits (mnemonic : String) (op : BitVec 8) (aFree dFree aMin aMax : Nat) : EncodingRow where
  mnemonic := mnemonic
  pat := commandWord op 0 0
  mask := commandWord (BitVec.allOnes 8) (BitVec.allOnes 8 <<< aFree) (BitVec.allOnes 128 <<< dFree)
  aMin := aMin
  aMax := aMax

/-- Every row of R73 asks for all of `op`, and for zeros in `a` and `d` above the free bits. -/
theorem encodingTable_eq : encodingTable =
    [rowOfFreeBits "RDREG" 0x10#8 4 0 0 15, rowOfFreeBits "ERRCLR" 0x11#8 0 0 0 255,
     rowOfFreeBits "BGET" 0x20#8 0 64 0 255, rowOfFreeBits "BSET" 0x21#8 0 64 0 255,
     rowOfFreeBits "HSTART" 0x30#8 1 32 0 255, rowOfFreeBits "HPUSH" 0x31#8 8 128 1 16,
     rowOfFreeBits "HFIN" 0x32#8 0 0 0 255, rowOfFreeBits "DLOAD" 0x33#8 0 128 0 255,
     rowOfFreeBits "DERIVE" 0x40#8 0 16 0 255, rowOfFreeBits "CFG" 0x50#8 0 80 0 255,
     rowOfFreeBits "SEAL" 0x51#8 0 0 0 255, rowOfFreeBits "TRAIN" 0x52#8 0 0 0 255,
     rowOfFreeBits "QUERY" 0x53#8 1 0 0 255] := by
  decide

theorem admits_eq_true_iff {r : EncodingRow} {w : CommandWord} :
    r.admits w = true ↔ w &&& r.mask = r.pat ∧ r.aMin ≤ (aField w).toNat ∧ (aField w).toNat ≤ r.aMax := by
  simp [EncodingRow.admits, and_assoc]

theorem rowOfFreeBits_admits_iff {mnemonic : String} {op : BitVec 8} {aFree dFree aMin aMax : Nat} {w : CommandWord} :
    (rowOfFreeBits mnemonic op aFree dFree aMin aMax).admits w = true ↔
      (opField w = op ∧ (aField w).extractLsb' aFree (8 - aFree) = 0 ∧ (dField w).extractLsb' dFree (128 - dFree) = 0) ∧
        aMin ≤ (aField w).toNat ∧ (aField w).toNat ≤ aMax := by
  rw [admits_eq_true_iff, rowOfFreeBits, eq_comm, commandWord_eq_iff, opField_and, aField_and, dField_and]
  simp only [opField_commandWord, aField_commandWord, dField_commandWord, BitVec.and_allOnes,
    and_allOnes_shiftLeft_eq_zero_iff]

/-! ## The rows against `decode` -/

theorem exists_instr_iff {P : Instr → Prop} : (∃ i, P i) ↔
    (∃ rn, P (.rdreg rn)) ∨ P .errclr ∨ (∃ idx, P (.bget idx)) ∨ (∃ idx, P (.bset idx)) ∨
    (∃ blkonly seed, P (.hstart blkonly seed)) ∨ (∃ n d, P (.hpush n d)) ∨ P .hfin ∨ (∃ h1 h2, P (.dload h1 h2)) ∨
    (∃ i, P (.derive i)) ∨ (∃ nbits k, P (.cfg nbits k)) ∨ P .sealFilter ∨ P .train ∨ (∃ null, P (.query null)) := by
  constructor
  · rintro ⟨i, h⟩
    cases i <;> grind
  · rintro (⟨_, h⟩ | h | ⟨_, h⟩ | ⟨_, h⟩ | ⟨_, _, h⟩ | ⟨_, _, h⟩ | h | ⟨_, _, h⟩ | ⟨_, h⟩ | ⟨_, _, h⟩ | h | h | ⟨_, h⟩)
    all_goals exact ⟨_, h⟩

/-- The zeros a row asks for are those of its command's operands, and its further condition is well-formedness. In the
row of `RDREG` the condition `a ≤ 15` already gives the mask's zeros in `a`. -/
theorem admits_iff {w : CommandWord} {r : EncodingRow} (hr : r ∈ encodingTable) :
    r.admits w = true ↔ ∃ i, decode w = .ok i ∧ mnemonic i = r.mnemonic := by
  revert r
  have hbyte : (aField w).toNat ≤ 255 := Nat.le_of_lt_succ (aField w).isLt
  simp only [encodingTable_eq, List.forall_mem_cons, rowOfFreeBits_admits_iff, exists_instr_iff, decode_eq_ok_iff,
    encode_eq_iff]
  refine ⟨?rdreg, ?_, ?_, ?_, ?_, ?hpush, ?_, ?_, ?_, ?_, ?_, ?_, ?_, ?_⟩
  case rdreg =>
    have hhigh : ∀ a : BitVec 8, a.toNat ≤ 15 → a.extractLsb' 4 4 = 0 := by decide
    simp +contextual [rowOfFreeBits, mnemonic, opcode, smallOperand, largeOperand, hhigh, and_comm]
  case hpush =>
    simp [rowOfFreeBits, mnemonic, opcode, smallOperand, largeOperand, and_comm]
  all_goals simp [rowOfFreeBits, mnemonic, wellFormed, opcode, smallOperand, largeOperand, hbyte, eq_flagField_iff,
    eq_append_iff (m := 64) (n := 64), eq_append_iff (m := 96) (n := 32), eq_append_iff (m := 112) (n := 16),
    eq_append_iff (m := 48) (n := 16), extractLsb'_extractLsb', -Bool.exists_bool]

theorem exists_row_of_instr (i : Instr) : ∃ r ∈ encodingTable, r.mnemonic = mnemonic i := by
  cases i <;> simp [encodingTable, mnemonic]

/-! ## The operands -/

theorem operands_of_decode {w : CommandWord} {i : Instr} (h : decode w = .ok i) :
    aField w = smallOperand i ∧ dField w = largeOperand i := by
  obtain ⟨-, hw⟩ := decode_eq_ok_iff.1 h
  exact (encode_eq_iff.1 hw).2

/-- Bits 127 to 0 of a legal word are its command's large operand. -/
theorem extractLsb'_of_decode {w : CommandWord} {i : Instr} (h : decode w = .ok i) {start len : Nat}
    (hin : start + len ≤ 128) : w.extractLsb' start len = (largeOperand i).extractLsb' start len := by
  rw [← (operands_of_decode h).2, dField, extractLsb'_extractLsb' w hin, Nat.zero_add]

/-- Bit 128 of a legal word is bit 0 of its command's small operand. -/
theorem getLsbD_of_decode {w : CommandWord} {i : Instr} (h : decode w = .ok i) :
    w.getLsbD 128 = (smallOperand i).getLsbD 0 := by
  rw [← (operands_of_decode h).1]
  simp [aField]

theorem getLsbD_flagField (b : Bool) : (flagField b).getLsbD 0 = b := (eq_flagField_iff.1 rfl).2

/-- Settles O3: the rows by their masks, the operands by their places in the encoded word. -/
theorem legalWordsAreThoseOfTheTable : Obligations.LegalWordsAreThoseOfTheTable := by
  refine ⟨fun w r hr => admits_iff hr, fun w i _ => exists_row_of_instr i, fun w rn h => ?rdreg, fun w idx h => ?bget,
    fun w idx h => ?bset, fun w b seed h => ⟨?blkonly, ?seed⟩, fun w n d h => ⟨?count, fun j hj => ?lane⟩,
    fun w h1 h2 h => ⟨?h1, ?h2⟩, fun w i h => ?derive, fun w nbits k h => ⟨?nbits, ?k⟩, fun w b h => ?null⟩
  case rdreg | count => exact (operands_of_decode h).1.symm
  case blkonly | null => rw [getLsbD_of_decode h, smallOperand, getLsbD_flagField]
  case bget | bset | seed | h1 | derive | nbits =>
    rw [extractLsb'_of_decode h (by decide)]
    exact BitVec.extractLsb'_append_eq_right.symm
  case h2 =>
    rw [extractLsb'_of_decode h (by decide)]
    exact BitVec.extractLsb'_append_eq_left.symm
  case k =>
    rw [extractLsb'_of_decode h (by decide), largeOperand, BitVec.extractLsb'_append_eq_of_le (by decide)]
    exact BitVec.extractLsb'_append_eq_right.symm
  case lane =>
    obtain ⟨-, hcount⟩ := wellFormed_hpush_iff.1 (decode_eq_ok_iff.1 h).1
    rw [extractLsb'_of_decode h (by omega), largeOperand, byteLane]

end Sys2Proof
end

section
/-! The step on an encoded word and on an illegal word, and the ignored lanes of `HPUSH` (R75, R162): O5, O8, O9. -/
namespace Sys2Proof.Machine

open Sys2Proof.Safety

/-! ## Illegal words -/

theorem runWord_of_reject {w : CommandWord} {e : DecodeReject} (h : decode w = .error e) (s : State) :
    runWord w s = .next (illegalWord (headField w) s) := by
  rw [runWord, h]

theorem illegalWord_of_err_zero {s : State} (h : s.err = 0) (head : BitVec 16) :
    illegalWord head s = raise s .illegal head := by
  rw [illegalWord, if_neg (by simp [faulted, h])]

/-- Settles O9: a rejected word is an illegal word, and its head is its two fields. -/
theorem illegalWordRaisesIllegal : Obligations.IllegalWordRaisesIllegal := by
  intro s w rest e hin hw herr
  rw [step_of_command_sent hin, runWord_of_reject hw, illegalWord_of_err_zero (s := { s with hostIn := rest }) herr,
    headField_eq]
  rfl

/-! ## Encoded words -/

theorem regOfNumber_of_reserved : ∀ {rn : BitVec 8}, 15 < rn.toNat → regOfNumber rn = none := by
  decide

theorem not_wellFormed_rdreg_iff {rn : BitVec 8} : wellFormed (.rdreg rn) = false ↔ 15 < rn.toNat := by
  rw [Bool.eq_false_iff, ne_eq, wellFormed_rdreg_iff, Nat.not_le]

theorem not_wellFormed_hpush_iff {n : BitVec 8} {d : BitVec 128} :
    wellFormed (.hpush n d) = false ↔ n.toNat = 0 ∨ 16 < n.toNat := by
  rw [Bool.eq_false_iff, ne_eq, wellFormed_hpush_iff]
  omega

theorem decode_encode_of_not_wellFormed {i : Instr} (h : wellFormed i = false) : ∃ e, decode (encode i) = .error e := by
  cases i with
  | rdreg rn =>
    have hreserved := not_wellFormed_rdreg_iff.1 h
    exact ⟨.reservedRegister, by simp [decode, encode, opcode, smallOperand, largeOperand, hreserved]⟩
  | hpush n d =>
    have hcount := not_wellFormed_hpush_iff.1 h
    exact ⟨.badByteCount, by simp [decode, encode, opcode, smallOperand, largeOperand, hcount]⟩
  | _ => cases h

/-- A term that is not well formed does what an illegal word does (log 9). -/
theorem exec_of_not_wellFormed {i : Instr} (h : wellFormed i = false) (s : State) :
    exec i s = .next (illegalWord (commandHead i) s) := by
  cases i with
  | rdreg rn =>
    rw [exec, execRdreg, regOfNumber_of_reserved (not_wellFormed_rdreg_iff.1 h)]
  | hpush n d => exact if_pos (not_wellFormed_hpush_iff.1 h)
  | _ => cases h

theorem runWord_encode (i : Instr) (s : State) : runWord (encode i) s = exec i s := by
  cases hwf : wellFormed i with
  | true => exact runWord_of_decode (decode_eq_ok_iff.2 ⟨hwf, rfl⟩) s
  | false =>
    obtain ⟨e, he⟩ := decode_encode_of_not_wellFormed hwf
    rw [runWord_of_reject he, exec_of_not_wellFormed hwf, encode, headField_commandWord, commandHead]

/-- Settles O8: a well-formed command by its legal word, an ill-formed one by the illegal word on both sides. -/
theorem stepOnEncodedWordIsExec : Obligations.StepOnEncodedWordIsExec := by
  intro s rest i hin
  rw [step_of_command_sent hin, runWord_encode]

/-! ## Ignored lanes -/

theorem pieceBytes_congr {n : BitVec 8} {d d' : BitVec 128} (h : ∀ j, j < n.toNat → byteLane d j = byteLane d' j) :
    pieceBytes n d = pieceBytes n d' :=
  List.map_congr_left fun j hj => h j (List.mem_range.1 hj)

/-- Settles O5: `HPUSH` reads its lanes only as the bytes of its piece. -/
theorem lanesAtAndAboveCountAreIgnored : Obligations.LanesAtAndAboveCountAreIgnored := by
  intro n d d' s h
  show execHpush n d s = execHpush n d' s
  rw [execHpush, pieceBytes_congr h]
  rfl

end Sys2Proof.Machine
end

section
/-! The pieces of `HASH` (R79): O6. -/
namespace Sys2Proof.Machine

theorem cutPieces_nil (fuel : Nat) : cutPieces fuel [] = [] := by cases fuel <;> rfl

theorem cutPieces_succ {b : List Byte} (h : b ≠ []) (fuel : Nat) :
    cutPieces (fuel + 1) b = b.take 16 :: cutPieces fuel (b.drop 16) := by
  cases b with
  | nil => exact absurd rfl h
  | cons x xs => rfl

/-- A piece takes at least one byte, so one unit of fuel for each byte is enough. -/
theorem flatten_cutPieces {fuel : Nat} {b : List Byte} (h : b.length ≤ fuel) : (cutPieces fuel b).flatten = b := by
  induction fuel generalizing b with
  | zero => rw [List.length_eq_zero_iff.1 (Nat.le_zero.1 h)]; rfl
  | succ fuel ih =>
    by_cases hb : b = []
    · rw [hb, cutPieces_nil, List.flatten_nil]
    · have hpos := List.length_pos_iff.2 hb
      rw [cutPieces_succ hb, List.flatten_cons, ih (by rw [List.length_drop]; omega), List.take_append_drop]

theorem length_of_mem_cutPieces {fuel : Nat} {b p : List Byte} (hp : p ∈ cutPieces fuel b) :
    1 ≤ p.length ∧ p.length ≤ 16 := by
  induction fuel generalizing b with
  | zero => cases hp
  | succ fuel ih =>
    by_cases hb : b = []
    · rw [hb, cutPieces_nil] at hp; cases hp
    · have hpos := List.length_pos_iff.2 hb
      rw [cutPieces_succ hb, List.mem_cons] at hp
      rcases hp with rfl | hp
      · rw [List.length_take]; omega
      · exact ih hp

/-- A piece that another one follows left bytes behind, so it is full. -/
theorem length_of_mem_dropLast_cutPieces {fuel : Nat} {b p : List Byte} (hp : p ∈ (cutPieces fuel b).dropLast) :
    p.length = 16 := by
  induction fuel generalizing b with
  | zero => cases hp
  | succ fuel ih =>
    by_cases hb : b = []
    · rw [hb, cutPieces_nil] at hp; cases hp
    · rw [cutPieces_succ hb] at hp
      by_cases hrest : cutPieces fuel (b.drop 16) = []
      · rw [hrest] at hp; cases hp
      · rw [List.dropLast_cons_of_ne_nil hrest, List.mem_cons] at hp
        rcases hp with rfl | hp
        · have hleft : b.drop 16 ≠ [] := fun hnil => hrest (by rw [hnil, cutPieces_nil])
          have hlong := List.length_pos_iff.2 hleft
          rw [List.length_drop] at hlong
          rw [List.length_take]; omega
        · exact ih hp

/-- Settles O6, by induction on the fuel, piece by piece. -/
theorem piecesRejoinToTheMessage : Obligations.PiecesRejoinToTheMessage :=
  fun _ => ⟨flatten_cutPieces (Nat.le_refl _), fun _ => length_of_mem_cutPieces,
    fun _ => length_of_mem_dropLast_cutPieces⟩

end Sys2Proof.Machine
end

section
/-! The one response of a command, and its word of format `P` (R71, R160): O50, O60. -/
namespace Sys2Proof.Machine

open Sys2Proof.Safety

/-- The command that takes `s` to `t` is answered with `x` (R71): `x` is appended to the responses given, its status is a
code of R160 and, on a core that was not faulted, `ERR`; its data are zero unless the status is `OK` and `hasData` holds. -/
structure RespondsWith (s t : State) (hasData : Prop) (x : Response) : Prop where
  hostIn : t.hostIn = s.hostIn
  hostOut : t.hostOut = s.hostOut ++ [x]
  status : x.st.toNat ≤ 8 ∨ x.st = 0x7F#8
  err : s.err = 0 → x.st = t.err
  failed : x.st ≠ 0 → x.r = 0
  data : x.r ≠ 0 → hasData

theorem respondsWith_of_turnedAway {s t : State} {head : BitVec 16} (h : TurnedAway s t head) (hasData : Prop) :
    ∃ x, RespondsWith s t hasData x := by
  rcases h with ⟨he, rfl⟩ | ⟨-, e, rfl⟩
  · exact ⟨⟨0x7F#8, 0⟩, rfl, rfl, .inr rfl, fun h0 => absurd h0 he, fun _ => rfl, fun hr => absurd rfl hr⟩
  · exact ⟨⟨errCode e, 0⟩, rfl, rfl, .inl (errCode_le e), fun _ => rfl, fun _ => rfl, fun hr => absurd rfl hr⟩

/-- An answer `OK` on a state that a command's effect made of `s`. -/
theorem respondsWith_of_ok {s u : State} {hasData : Prop} {r : BitVec 128} (hin : u.hostIn = s.hostIn)
    (hout : u.hostOut = s.hostOut) (herr : s.err = 0 → u.err = 0) (hdata : r ≠ 0 → hasData) :
    ∃ x, RespondsWith s (respond u 0 r) hasData x :=
  ⟨⟨0, r⟩, hin, by rw [respond_hostOut, hout], .inl (Nat.zero_le 8), fun h => (herr h).symm, fun h => absurd rfl h,
    hdata⟩

/-- Every command gives one response, with data only where its rule answers data. -/
theorem exec_respondsWith {c : Instr} {s t : State} (h : exec c s = .next t) :
    ∃ x, RespondsWith s t (answersData c = true) x := by
  cases c with
  | rdreg rn =>
    rcases execRdreg_cases rn s t h with ⟨-, ha⟩ | ⟨_, -, rfl⟩
    · exact respondsWith_of_turnedAway ha _
    · exact respondsWith_of_ok rfl rfl id fun _ => rfl
  | errclr => cases h; exact respondsWith_of_ok rfl rfl (fun _ => rfl) fun hr => absurd rfl hr
  | bget idx =>
    rcases execBget_cases idx s t h with ha | ⟨-, -, -, -, rfl⟩
    · exact respondsWith_of_turnedAway ha _
    · exact respondsWith_of_ok rfl rfl id fun _ => rfl
  | bset idx =>
    rcases execBset_cases idx s t h with ha | ⟨-, -, -, -, u, hu, rfl⟩
    · exact respondsWith_of_turnedAway ha _
    · rw [((bitSet_eq_ok s idx u).1 hu).2]
      exact respondsWith_of_ok rfl rfl id fun hr => absurd rfl hr
  | hstart blkonly seed =>
    rcases execHstart_cases blkonly seed s t h with ha | ⟨-, rfl⟩
    · exact respondsWith_of_turnedAway ha _
    · exact respondsWith_of_ok rfl rfl id fun hr => absurd rfl hr
  | hpush n d =>
    rcases execHpush_cases n d s t h with ha | ⟨-, -, -, -, -, -, rfl⟩
    · exact respondsWith_of_turnedAway ha _
    · obtain ⟨h1, h2, buf, fill, e⟩ := absorb_frame s (pieceBytes n d)
      rw [e]
      exact respondsWith_of_ok rfl rfl id fun hr => absurd rfl hr
  | hfin =>
    rcases execHfin_cases s t h with ha | ⟨-, -, h1, h2, rfl, -⟩
    · exact respondsWith_of_turnedAway ha _
    · exact respondsWith_of_ok rfl rfl id fun _ => rfl
  | dload h1 h2 =>
    rcases execDload_cases h1 h2 s t h with ha | ⟨-, -, rfl⟩
    · exact respondsWith_of_turnedAway ha _
    · exact respondsWith_of_ok rfl rfl id fun hr => absurd rfl hr
  | derive i =>
    rcases execDerive_cases i s t h with ha | ⟨-, -, -, -, -, rfl⟩
    · exact respondsWith_of_turnedAway ha _
    · exact respondsWith_of_ok rfl rfl id fun _ => rfl
  | cfg nbits k =>
    rcases execCfg_cases nbits k s t h with ha | ⟨-, -, -, -, -, -, m, rfl, -⟩
    · exact respondsWith_of_turnedAway ha _
    · exact respondsWith_of_ok rfl rfl id fun _ => rfl
  | sealFilter =>
    rcases execSeal_cases s t h with ha | ⟨-, -, rfl⟩
    · exact respondsWith_of_turnedAway ha _
    · exact respondsWith_of_ok rfl rfl id fun hr => absurd rfl hr
  | train =>
    rcases execTrain_cases s t h with ha | ⟨-, -, -, u, hu, rfl⟩
    · exact respondsWith_of_turnedAway ha _
    · rw [trainFrom_frame _ _ _ _ hu]
      exact respondsWith_of_ok rfl rfl id fun hr => absurd rfl hr
  | query null =>
    rcases execQuery_cases null s t h with ha | ⟨-, -, -, rfl⟩ | ⟨-, -, rfl, -, hit, u, hu, rfl⟩
    · exact respondsWith_of_turnedAway ha _
    · exact respondsWith_of_ok rfl rfl id fun hr => absurd rfl hr
    · rw [queryFrom_frame _ _ _ _ _ hu]
      exact respondsWith_of_ok rfl rfl id fun _ => rfl

/-- A command word, legal or not, gets one response, with data only where it is a command that answers data. -/
theorem runWord_respondsWith {w : CommandWord} {s t : State} (h : runWord w s = .next t) :
    ∃ x, RespondsWith s t (∃ i, decode w = .ok i ∧ answersData i = true) x := by
  rcases runWord_cases h with ⟨i, hi, h⟩ | ha
  · obtain ⟨x, hx⟩ := exec_respondsWith h
    exact ⟨x, { hx with data := fun hr => ⟨i, hi, hx.data hr⟩ }⟩
  · exact respondsWith_of_turnedAway ha _

theorem step_respondsWith {s t : State} {w : CommandWord} {rest : List HostEvent} (hin : s.hostIn = .command w :: rest)
    (h : step s = .next t) :
    ∃ x, RespondsWith { s with hostIn := rest } t (∃ i, decode w = .ok i ∧ answersData i = true) x := by
  rw [step_of_command_sent hin] at h
  exact runWord_respondsWith h

/-- Settles O50, by the response that takes the step's word. -/
theorem oneResponsePerCommand : Obligations.OneResponsePerCommand := by
  intro s t w rest hin h
  obtain ⟨x, hqueue, hout, hstatus, -, hfailed, -⟩ := step_respondsWith hin h
  exact ⟨hqueue, x, hout, hstatus, hfailed⟩

/-- With no command word next a step waits or takes the reset event, and neither gives a response. -/
theorem step_hostOut_of_no_command {s t : State} (hno : ∀ w rest, s.hostIn ≠ .command w :: rest)
    (h : step s = .next t) : t.hostOut = s.hostOut := by
  rcases step_cases h with ⟨-, rfl⟩ | ⟨rest, -, rfl⟩ | ⟨w, rest, hin, -⟩
  · rfl
  · rfl
  · exact absurd hin (hno w rest)

/-- Settles O60: the two fields of the word sent are those of the response recorded. -/
theorem responsesAreWordsOfFormatP : Obligations.ResponsesAreWordsOfFormatP := by
  refine ⟨fun s t w rest hin h => ?_, fun s t hno h => ?_⟩
  · obtain ⟨x, -, hout, hstatus, herr, hfailed, hdata⟩ := step_respondsWith hin h
    have hst : (responseWord x).extractLsb' 128 8 = x.st := stField_responseWord x
    have hr : (responseWord x).extractLsb' 0 128 = x.r := rField_responseWord x
    refine ⟨responseWord x, ?_, ?_⟩
    · rw [responsesSent, responsesSent, hout, List.map_append, List.map_singleton]
    · rw [hst, hr]
      exact ⟨hstatus, herr, hfailed, hdata⟩
  · rw [responsesSent, responsesSent, step_hostOut_of_no_command hno h]

end Sys2Proof.Machine
end

section
/-! `BGET` and `BSET`: their outcomes where R91 and R92 allow them, and their errors (R161): O17, O18, O19. -/
namespace Sys2Proof.Machine

open Sys2Proof.Safety

/-- An index below `64 * AWORDS` has its word inside the allocation, and by R41 item 3 inside `MEM`. -/
theorem indexInside_of_inv {s : State} {idx : Word} (h : Inv s) (hp : s.fphase ≠ .unconf)
    (hr : idx.toNat < 64 * s.awords.toNat) : indexInside s idx := by
  obtain ⟨-, hfit, -, -⟩ := h.sizing hp
  have hword : wordIndex idx < s.awords.toNat := Nat.div_lt_of_lt_mul hr
  exact ⟨hword.trans_le hfit, hword⟩

/-- `BGET` where R91's checks pass. -/
theorem execBget_of_bitGet {s : State} {idx v : Word} (he : s.err = 0) (hp : s.fphase ≠ .unconf)
    (hr : idx.toNat < 64 * s.awords.toNat) (hv : bitGet s idx = .ok v) :
    execBget idx s = .next (answer s (v.setWidth 128)) := by
  rw [execBget, whenReady_of_err_zero _ _ he, if_neg hp, if_neg (by omega), hv]

/-- Settles O17: by R41 the word read is allocated, and `BitGet` answers the bit. -/
theorem bgetAnswersTheBit : Obligations.BgetAnswersTheBit := by
  intro s idx hinv he hp hr
  have hget := bitGet_of_inside s idx (indexInside_of_inv hinv hp hr)
  have hwide : (if filterBit s idx.toNat then 1#64 else 0#64).setWidth 128 =
      if filterBit s idx.toNat then 1#128 else 0#128 := apply_ite (BitVec.setWidth 128) _ _ _
  rw [← hwide]
  exact execBget_of_bitGet he hp hr hget

/-- Settles O18: by R41 the word written is allocated, and `BitSet` sets the bit and keeps the rest. -/
theorem bsetSetsTheBitAndNothingElse : Obligations.BsetSetsTheBitAndNothingElse := by
  intro s idx hinv he hp hr
  have hconf : s.fphase ≠ .unconf := by rw [hp]; decide
  obtain ⟨m, hset, hbits, hbytes, -, -⟩ := bitSet_spec s idx (indexInside_of_inv hinv hconf hr)
  exact ⟨m, execBset_of_bitSet he hp hr hset, hbits, hbytes⟩

/-! ## The errors, in the order of R161 -/

theorem execBget_of_unconf {s : State} (idx : Word) (he : s.err = 0) (hp : s.fphase = .unconf) :
    execBget idx s = .next (raise s .seq (commandHead (.bget idx))) := by
  rw [execBget, whenReady_of_err_zero _ _ he, if_pos hp]

theorem execBget_of_range {s : State} {idx : Word} (he : s.err = 0) (hp : s.fphase ≠ .unconf)
    (hr : 64 * s.awords.toNat ≤ idx.toNat) : execBget idx s = .next (raise s .range (commandHead (.bget idx))) := by
  rw [execBget, whenReady_of_err_zero _ _ he, if_neg hp, if_pos hr]

theorem execBset_of_unconf {s : State} (idx : Word) (he : s.err = 0) (hp : s.fphase = .unconf) :
    execBset idx s = .next (raise s .seq (commandHead (.bset idx))) := by
  rw [execBset, whenReady_of_err_zero _ _ he, if_pos hp]

theorem execBset_of_sealed {s : State} (idx : Word) (he : s.err = 0) (hp : s.fphase = .sealed) :
    execBset idx s = .next (raise s .sealed (commandHead (.bset idx))) := by
  rw [execBset, whenReady_of_err_zero _ _ he, if_neg (by simp [hp]), if_pos hp]

theorem execBset_of_range {s : State} {idx : Word} (he : s.err = 0) (hp : s.fphase = .training)
    (hr : 64 * s.awords.toNat ≤ idx.toNat) : execBset idx s = .next (raise s .range (commandHead (.bset idx))) := by
  rw [execBset, whenReady_of_err_zero _ _ he, if_neg (by simp [hp]), if_neg (by simp [hp]), if_pos hr]

/-- Settles O19: in each case the checks before the failing one pass. -/
theorem bitCommandErrors : Obligations.BitCommandErrors := by
  intro s idx he
  refine ⟨fun hp => ⟨?_, ?_⟩, fun hp => ?_, fun hr => ⟨fun hp => ?_, fun hp => ?_⟩⟩
  · exact execBget_of_unconf idx he hp
  · exact execBset_of_unconf idx he hp
  · exact execBset_of_sealed idx he hp
  · exact execBget_of_range he hp hr
  · exact execBset_of_range he hp hr

end Sys2Proof.Machine
end

section
/-! Which bits of the filter a command sets, which it keeps, and which `CFG` clears (R93): O20. -/
namespace Sys2Proof.Machine

open Sys2Proof.Safety

theorem filterBit_of_mem_eq {s t : State} (h : t.mem = s.mem) (j : Nat) : filterBit t j = filterBit s j :=
  filterBit_congr t s j (by rw [h])

/-- The index an iteration of `TRAIN` derives (R120). -/
theorem indexOf_of_deriveIndex {s : State} {i : Nat} {v : Word} (h : deriveIndex s (BitVec.ofNat 16 i) = .ok v) :
    v = indexOf s i := by
  by_cases hn : s.nbits = 0
  · rw [deriveIndex, if_pos hn] at h; cases h
  · rw [deriveIndex_of_ne_zero s _ hn] at h
    cases h
    rfl

/-- After `n` turns of `TRAIN`'s loop from iteration `i` on, the bits set are those set before and those of the `n`
indices derived (R133). -/
theorem trainFrom_filterBit_iff {n i j : Nat} {s t : State} (h : trainFrom n i s = .ok t) :
    filterBit t j = true ↔ filterBit s j = true ∨ ∃ x < n, (indexOf s (i + x)).toNat = j := by
  induction n generalizing i s with
  | zero => cases h; simp
  | succ n ih =>
    obtain ⟨v, u, hv, hu, ht⟩ := trainFrom_succ_eq_ok.1 h
    obtain ⟨-, hframe, hbits, -⟩ := bitSet_cases hu
    obtain rfl := indexOf_of_deriveIndex hv
    have hkept : filterBit { s with idx := indexOf s i } j = filterBit s j := filterBit_of_mem_eq rfl j
    have hindex : ∀ x, indexOf u (i + 1 + x) = indexOf s (i + (x + 1)) := fun x => by
      rw [hframe, Nat.add_right_comm i 1, ← Nat.add_assoc]; rfl
    calc filterBit t j = true
        ↔ filterBit u j = true ∨ ∃ x < n, (indexOf u (i + 1 + x)).toNat = j := ih ht
      _ ↔ (filterBit s j = true ∨ (indexOf s i).toNat = j) ∨ ∃ x < n, (indexOf s (i + (x + 1))).toNat = j := by
        simp only [hbits, hkept, hindex, Bool.or_eq_true, decide_eq_true_eq, @eq_comm Nat j, or_comm]
      _ ↔ filterBit s j = true ∨ ∃ x < n + 1, (indexOf s (i + x)).toNat = j := by
        rw [or_assoc, Nat.exists_lt_succ_left, Nat.add_zero]

/-- The bits R93 item 5 lets a command set: that of a `BSET`, and those of the `K` indices of a `TRAIN`. -/
def MaySetBit (c : Instr) (s : State) (j : Nat) : Prop :=
  (∃ i, c = .bset i ∧ i.toNat = j) ∨ (c = .train ∧ isIndexBelow s s.k.toNat j)

/-- A command other than `CFG` keeps a bit, or sets it as R93 item 5 lets it. -/
theorem exec_filterBit {c : Instr} {s t : State} (hcfg : isCfg c = false) (h : exec c s = .next t) (j : Nat) :
    filterBit t j = filterBit s j ∨ (filterBit t j = true ∧ MaySetBit c s j) := by
  by_cases htrain : c = .train
  · subst htrain
    rcases execTrain_cases s t h with ha | ⟨-, -, -, u, hu, rfl⟩
    · exact .inl (filterBit_of_mem_eq ha.mem_eq j)
    · have hiff : filterBit u j = true ↔ filterBit s j = true ∨ isIndexBelow s s.k.toNat j := by
        simpa [isIndexBelow] using trainFrom_filterBit_iff (j := j) hu
      by_cases hidx : isIndexBelow s s.k.toNat j
      · exact .inr ⟨hiff.2 (.inr hidx), .inr ⟨rfl, hidx⟩⟩
      · exact .inl (Bool.eq_iff_iff.2 (hiff.trans (or_iff_left hidx)))
  by_cases hbset : ∃ i, c = .bset i
  · obtain ⟨i, rfl⟩ := hbset
    rcases execBset_cases i s t h with ha | ⟨-, -, -, -, u, hu, rfl⟩
    · exact .inl (filterBit_of_mem_eq ha.mem_eq j)
    · obtain ⟨-, -, hbits, -⟩ := bitSet_cases hu
      by_cases hj : j = i.toNat
      · exact .inr ⟨(hbits j).trans (by simp [hj]), .inl ⟨i, rfl, hj.symm⟩⟩
      · exact .inl ((hbits j).trans (by simp [hj]))
  exact .inl (filterBit_of_mem_eq (exec_mem hcfg htrain (fun i e => hbset ⟨i, e⟩) h) j)

/-- R93, independence: a `BSET` keeps every bit but its own. -/
theorem exec_bset_filterBit_of_ne {s t : State} {i : Word} {j : Nat} (h : exec (.bset i) s = .next t)
    (hj : j ≠ i.toNat) : filterBit t j = filterBit s j := by
  rcases exec_filterBit rfl h j with hkept | ⟨-, ⟨i', hi, hset⟩ | ⟨htrain, -⟩⟩
  · exact hkept
  · cases hi; exact absurd hset.symm hj
  · cases htrain

/-- R93, monotonicity: only a `CFG` clears a bit. -/
theorem exec_filterBit_mono {c : Instr} {s t : State} {j : Nat} (hcfg : isCfg c = false) (h : exec c s = .next t)
    (hj : filterBit s j = true) : filterBit t j = true := by
  rcases exec_filterBit hcfg h j with hkept | ⟨hset, -⟩
  · exact hkept.trans hj
  · exact hset

/-- A `BSET` that leaves the core not faulted was accepted on a core not faulted, and has set its bit (R92). -/
theorem exec_bset_accepted {s t : State} {i : Word} (h : exec (.bset i) s = .next t) (he : t.err = 0) :
    s.err = 0 ∧ filterBit t i.toNat = true := by
  rcases execBset_cases i s t h with ha | ⟨hs, -, -, -, u, hu, rfl⟩
  · exact absurd he ha.err_ne_zero
  · obtain ⟨-, -, hbits, -⟩ := bitSet_cases hu
    exact ⟨hs, (hbits i.toNat).trans (by simp)⟩

/-- R93, initial value: a `CFG` that does not fail leaves every allocated bit 0. -/
theorem exec_cfg_filterBit {s t : State} {nbits : Word} {k : BitVec 16} {j : Nat}
    (h : exec (.cfg nbits k) s = .next t) (he : t.err = 0) (hj : j < 64 * t.awords.toNat) : filterBit t j = false := by
  rcases execCfg_cases nbits k s t h with ha | ⟨-, -, -, -, -, hexact, m, rfl, hbytes, -⟩
  · exact absurd he ha.err_ne_zero
  · exact filterBit_of_bytes_zero _ (allocWords nbits) j (fun a ha => (hbytes a).trans (if_pos ha)) (hexact ▸ hj)

/-- Settles O20, by what a command does to one bit. -/
theorem bitLaws : Obligations.BitLaws := by
  refine ⟨fun s t i j h hj => exec_bset_filterBit_of_ne h hj, fun s t u i j hi hj hu => ?_,
    fun c s t j hc h hj => exec_filterBit_mono hc h hj, fun s t nbits k j h he hj => exec_cfg_filterBit h he hj,
    fun c s t j hc h hclear hset => ?_⟩
  · obtain ⟨ht, hbitj⟩ := exec_bset_accepted hj hu
    obtain ⟨-, hbiti⟩ := exec_bset_accepted hi ht
    exact ⟨exec_filterBit_mono rfl hj hbiti, hbitj⟩
  · rcases exec_filterBit hc h j with hkept | ⟨-, hmay⟩
    · exact nomatch (hset.symm.trans hkept).trans hclear
    · exact hmay

end Sys2Proof.Machine
end

section
/-! The lanes of packed bytes (R11), and of the two halves of a 16-byte carrier (R23, R52). -/
namespace Sys2Proof.Machine

/-- A value of `m` byte lanes is determined by them. -/
theorem eq_of_byteLane_eq {n m : Nat} {v w : BitVec n} (hn : n ≤ 8 * m) (h : ∀ j, j < m → byteLane v j = byteLane w j) :
    v = w := by
  apply BitVec.eq_of_getLsbD_eq
  intro i hi
  have hbit := congrArg (BitVec.getLsbD · (i % 8)) (h (i / 8) (by omega))
  have hlane : i % 8 < 8 := by omega
  simpa only [getLsbD_byteLane _ _ _ hlane, Nat.div_add_mod] using hbit

theorem byteLane_loHalf (v : BitVec 128) {j : Nat} (hj : j < 8) : byteLane (loHalf v) j = byteLane v j := by
  rw [loHalf, byteLane, extractLsb'_extractLsb' _ (by omega), Nat.zero_add, byteLane]

theorem byteLane_hiHalf (v : BitVec 128) {j : Nat} (hj : j < 8) : byteLane (hiHalf v) j = byteLane v (8 + j) := by
  rw [hiHalf, byteLane, extractLsb'_extractLsb' _ (by omega), byteLane, Nat.mul_add]

/-- Lane `j` of packed bytes is byte `j`, and zero past the last byte. -/
theorem byteLane_packBytes (bs : List Byte) {j : Nat} (hj : j < 16) : byteLane (packBytes bs) j = bs.getD j 0 := by
  induction bs generalizing j with
  | nil => exact byteLane_zero j
  | cons b bs ih =>
    apply BitVec.eq_of_getLsbD_eq
    intro i hi
    rw [getLsbD_byteLane _ _ _ hi, packBytes, BitVec.getLsbD_or, BitVec.getLsbD_shiftLeft, BitVec.getLsbD_setWidth]
    cases j with
    | zero => simp [hi]; omega
    | succ j =>
      have hout : b.getLsbD (8 * (j + 1) + i) = false := BitVec.getLsbD_of_ge _ _ (by omega)
      have hbelow : 8 * (j + 1) + i - 8 = 8 * j + i := by omega
      have hin : 8 * (j + 1) + i < 128 := by omega
      have habove : ¬ 8 * (j + 1) + i < 8 := by omega
      rw [hout, hbelow, ← getLsbD_byteLane _ _ _ hi, ih (by omega)]
      simp [hin, habove]

/-- A byte entered in the first free lane of packed bytes is packed behind them. -/
theorem setByteLane_packBytes (bs : List Byte) (b : Byte) :
    setByteLane (packBytes bs) bs.length b = packBytes (bs ++ [b]) := by
  apply eq_of_byteLane_eq (m := 16) le_rfl
  intro j hj
  rw [byteLane_setByteLane _ _ hj, byteLane_packBytes _ hj, byteLane_packBytes _ hj]
  rcases Nat.lt_trichotomy j bs.length with hlt | rfl | hgt
  · rw [if_neg hlt.ne, List.getD_append _ _ _ _ hlt]
  · simp
  · rw [if_neg hgt.ne', List.getD_eq_default _ _ hgt.le, List.getD_eq_default _ _ (by simp; omega)]

theorem loHalf_packBytes_nil : loHalf (packBytes []) = 0#64 := rfl

theorem loHalf_packBytes_take (bs : List Byte) : loHalf (packBytes (bs.take 8)) = loHalf (packBytes bs) := by
  apply eq_of_byteLane_eq (m := 8) le_rfl
  intro j hj
  rw [byteLane_loHalf _ hj, byteLane_loHalf _ hj, byteLane_packBytes _ (by omega), byteLane_packBytes _ (by omega)]
  simp [List.getD_eq_getElem?_getD, hj]

/-- Bytes 8 on of packed bytes are their high half. -/
theorem loHalf_packBytes_drop (bs : List Byte) : loHalf (packBytes (bs.drop 8)) = hiHalf (packBytes bs) := by
  apply eq_of_byteLane_eq (m := 8) le_rfl
  intro j hj
  rw [byteLane_loHalf _ hj, byteLane_hiHalf _ hj, byteLane_packBytes _ (by omega), byteLane_packBytes _ (by omega)]
  simp [List.getD_eq_getElem?_getD]

/-- A piece that is packed for an `HPUSH` is the piece the `HPUSH` reads (R78). -/
theorem pieceBytes_packBytes {p : List Byte} (h : p.length ≤ 16) :
    pieceBytes (BitVec.ofNat 8 p.length) (packBytes p) = p := by
  have hcount : (BitVec.ofNat 8 p.length).toNat = p.length := by simp; omega
  apply List.ext_getElem (by rw [length_pieceBytes, hcount])
  intro j hj hp
  simp only [pieceBytes, List.getElem_map, List.getElem_range]
  rw [byteLane_packBytes _ (by omega), List.getD_eq_getElem _ _ hp]

end Sys2Proof.Machine
end

section
/-! The functions of the hash engine against R102 to R106 and R110: O22, O23, O24, O25, O32. -/
namespace Sys2Proof.Machine

@[simp] theorem mixk1_zero : mixk1 0#64 = 0#64 := by decide

@[simp] theorem mixk2_zero : mixk2 0#64 = 0#64 := by decide

/-- Settles O22: below 64 the rotation is the library's. -/
theorem keyMixers : Obligations.KeyMixers := by
  refine ⟨fun k => ⟨?_, ?_⟩, mixk1_zero, mixk2_zero, by decide, by decide⟩
  · rw [mixk1, rotl64_eq_rotateLeft _ (by omega), c1, c2]
  · rw [mixk2, rotl64_eq_rotateLeft _ (by omega), c1, c2]

/-- Settles O23: below 64 the rotation is the library's. -/
theorem blockStepAssignments : Obligations.BlockStepAssignments := by
  refine ⟨fun h1 h2 k1 k2 => ⟨?_, ?_⟩, by decide, by decide, by decide, by decide⟩
  · rw [← rotl64_eq_rotateLeft _ (by omega)]; rfl
  · rw [← rotl64_eq_rotateLeft _ (by omega)]; rfl

/-- The logical shift by 33 is the division by `2^33` (R105). -/
theorem xorShift33_eq (k : Word) : xorShift33 k = k ^^^ BitVec.ofNat 64 (k.toNat / 2 ^ 33) := by
  rw [xorShift33, ← Nat.shiftRight_eq_div_pow, ← BitVec.toNat_ushiftRight, BitVec.ofNat_toNat, BitVec.setWidth_eq]

/-- Settles O24: each shift of `fmix64` is a division. -/
theorem finalMixer : Obligations.FinalMixer :=
  ⟨fun k => ⟨_, _, _, _, xorShift33_eq k, rfl, xorShift33_eq _, rfl, xorShift33_eq _⟩,
    by decide, by decide, by decide, by decide⟩

/-- Settles O25: a condition of R106 fails only for a half with no byte, and the mixers map zero to zero. -/
theorem tailFoldOfTheTailBytes : Obligations.TailFoldOfTheTailBytes := by
  intro h1 h2 t _
  rw [loHalf_packBytes_take, tailFold]
  congr 1
  · split
    next => rfl
    next hempty =>
      obtain rfl := List.eq_nil_of_length_eq_zero (Nat.eq_zero_of_not_pos hempty)
      rw [loHalf_packBytes_nil, mixk1_zero, BitVec.xor_zero]
  · split
    next => rw [loHalf_packBytes_drop]
    next hshort =>
      rw [List.drop_eq_nil_of_le (Nat.not_lt.1 hshort), loHalf_packBytes_nil, mixk2_zero, BitVec.xor_zero]

/-- Settles O32: both hashes, evaluated. -/
theorem builtInCollision : Obligations.BuiltInCollision := by
  unfold Obligations.BuiltInCollision
  decide

end Sys2Proof.Machine
end

section
/-! The buffer while the bytes of a piece are absorbed: they fit, or they fill it (R104). -/
namespace Sys2Proof.Machine

/-- Bytes entered in consecutive lanes of a carrier, the first in lane `k`. -/
def putBytes (v : BitVec 128) (k : Nat) : List Byte → BitVec 128
  | [] => v
  | b :: bs => putBytes (setByteLane v k b) (k + 1) bs

theorem byteLane_putBytes (v : BitVec 128) (k : Nat) (bs : List Byte) {i : Nat} (hi : i < 16) :
    byteLane (putBytes v k bs) i = if k ≤ i ∧ i < k + bs.length then bs.getD (i - k) 0 else byteLane v i := by
  induction bs generalizing v k with
  | nil => rw [putBytes, if_neg (by simp)]
  | cons b bs ih =>
    rw [putBytes, ih, byteLane_setByteLane _ _ hi, List.length_cons]
    rcases Nat.lt_trichotomy i k with hlt | rfl | hgt
    · rw [if_neg (by omega), if_neg hlt.ne, if_neg (by omega)]
    · rw [if_neg (by omega), if_pos rfl, if_pos (by omega), Nat.sub_self, List.getD_cons_zero]
    · have hindex : i - k = (i - (k + 1)) + 1 := by omega
      have hrange : (k + 1 ≤ i ∧ i < k + 1 + bs.length) ↔ (k ≤ i ∧ i < k + (bs.length + 1)) := by omega
      rw [if_neg hgt.ne', hindex, List.getD_cons_succ]
      simp only [hrange]

/-- A full buffer put through the block step and cleared (R103, R104). -/
def runBlock (s : State) (full : BitVec 128) : State :=
  { s with h1 := (blockStep s.h1 s.h2 (loHalf full) (hiHalf full)).1
           h2 := (blockStep s.h1 s.h2 (loHalf full) (hiHalf full)).2, buf := 0, fill := 0 }

@[simp] theorem runBlock_buf (s : State) (full : BitVec 128) : (runBlock s full).buf = 0 := rfl

@[simp] theorem runBlock_fill (s : State) (full : BitVec 128) : (runBlock s full).fill = 0 := rfl

theorem absorbByte_of_room {s : State} (b : Byte) (h : s.fill.toNat + 1 ≠ 16) :
    absorbByte s b = { s with buf := setByteLane s.buf s.fill.toNat b, fill := s.fill + 1 } := if_neg h

theorem absorbByte_of_full {s : State} (b : Byte) (h : s.fill.toNat + 1 = 16) :
    absorbByte s b = runBlock s (setByteLane s.buf s.fill.toNat b) := if_pos h

theorem toNat_fill_add_one {s : State} (h : s.fill.toNat + 1 ≠ 16) : (s.fill + 1).toNat = s.fill.toNat + 1 := by
  have hlt := s.fill.isLt
  rw [BitVec.toNat_add]
  exact Nat.mod_eq_of_lt (show s.fill.toNat + 1 < 16 by omega)

/-- Bytes that do not fill the buffer enter its lanes from `FILL` on. -/
theorem absorb_of_room {s : State} {bs : List Byte} (h : s.fill.toNat + bs.length < 16) :
    absorb s bs =
      { s with buf := putBytes s.buf s.fill.toNat bs, fill := BitVec.ofNat 4 (s.fill.toNat + bs.length) } := by
  induction bs generalizing s with
  | nil => simp [absorb_nil, putBytes]
  | cons b bs ih =>
    rw [List.length_cons] at h
    have hroom : s.fill.toNat + 1 ≠ 16 := by omega
    have hfill := toNat_fill_add_one hroom
    rw [absorb_cons, absorbByte_of_room b hroom, ih (by simp only [hfill]; omega)]
    simp only [hfill, putBytes, List.length_cons, Nat.add_comm bs.length, Nat.add_assoc]

/-- Bytes that just fill the buffer run one block step on it. -/
theorem absorb_of_full {s : State} {bs : List Byte} (h : s.fill.toNat + bs.length = 16) :
    absorb s bs = runBlock s (putBytes s.buf s.fill.toNat bs) := by
  induction bs generalizing s with
  | nil => exact absurd h s.fill.isLt.ne
  | cons b bs ih =>
    rw [List.length_cons] at h
    by_cases hfull : s.fill.toNat + 1 = 16
    · obtain rfl : bs = [] := List.eq_nil_of_length_eq_zero (by omega)
      exact absorbByte_of_full b hfull
    · have hfill := toNat_fill_add_one hfull
      rw [absorb_cons, absorbByte_of_room b hfull, ih (by simp only [hfill]; omega)]
      simp only [hfill, putBytes, runBlock]

/-- Bytes that fill the buffer and go on: one block step, then the rest enters the cleared buffer from lane 0 on. -/
theorem absorb_of_overflow {s : State} {bs : List Byte} (h : 16 ≤ s.fill.toNat + bs.length) (hlen : bs.length ≤ 16) :
    absorb s bs =
      { runBlock s (putBytes s.buf s.fill.toNat (bs.take (16 - s.fill.toNat))) with
        buf := putBytes 0 0 (bs.drop (16 - s.fill.toNat))
        fill := BitVec.ofNat 4 (s.fill.toNat + bs.length - 16) } := by
  have hlt := s.fill.isLt
  have hfull : s.fill.toNat + (bs.take (16 - s.fill.toNat)).length = 16 := by rw [List.length_take]; omega
  have hempty : (0 : BitVec 4).toNat = 0 := rfl
  have hrest : (bs.drop (16 - s.fill.toNat)).length = s.fill.toNat + bs.length - 16 := by rw [List.length_drop]; omega
  conv_lhs => rw [← List.take_append_drop (16 - s.fill.toNat) bs]
  rw [absorb_append, absorb_of_full hfull, absorb_of_room (by rw [runBlock_fill, hrest, hempty]; omega), runBlock_buf,
    runBlock_fill, hrest, hempty, Nat.zero_add]

/-! ## The lanes a piece fills -/

/-- Byte `j` of a piece is lane `j` of the operand (R74). -/
theorem getD_pieceBytes {n : BitVec 8} (d : BitVec 128) {j : Nat} (hj : j < n.toNat) :
    (pieceBytes n d).getD j 0 = byteLane d j := by
  simp [pieceBytes, hj]

theorem byteLane_putBytes_piece (v : BitVec 128) (k : Nat) (n : BitVec 8) (d : BitVec 128) {j : Nat} (hj : j < 16) :
    byteLane (putBytes v k (pieceBytes n d)) j =
      if k ≤ j ∧ j < k + n.toNat then byteLane d (j - k) else byteLane v j := by
  rw [byteLane_putBytes _ _ _ hj, length_pieceBytes]
  split
  next hin => exact getD_pieceBytes d (by omega)
  next => rfl

/-- The lanes when the first bytes of a piece fill the buffer. -/
theorem byteLane_putBytes_piece_take (v : BitVec 128) {k : Nat} {n : BitVec 8} (d : BitVec 128)
    (h : 16 ≤ k + n.toNat) {j : Nat} (hj : j < 16) :
    byteLane (putBytes v k ((pieceBytes n d).take (16 - k))) j = if j < k then byteLane v j else byteLane d (j - k) := by
  rw [byteLane_putBytes _ _ _ hj, List.length_take, length_pieceBytes]
  by_cases hold : j < k
  · rw [if_neg (by omega), if_pos hold]
  · rw [if_pos (by omega), if_neg hold, List.getD_eq_getElem?_getD, List.getElem?_take_of_lt (by omega),
      ← List.getD_eq_getElem?_getD, getD_pieceBytes d (by omega)]

/-- The lanes when the bytes of a piece from byte `m` on enter an empty buffer. -/
theorem byteLane_putBytes_piece_drop (n : BitVec 8) (d : BitVec 128) (m : Nat) {j : Nat} (hj : j < 16) :
    byteLane (putBytes 0 0 ((pieceBytes n d).drop m)) j = if j < n.toNat - m then byteLane d (m + j) else 0 := by
  rw [byteLane_putBytes _ _ _ hj, List.length_drop, length_pieceBytes, byteLane_zero]
  by_cases hin : j < n.toNat - m
  · rw [if_pos (by omega), if_pos hin, List.getD_eq_getElem?_getD, List.getElem?_drop, ← List.getD_eq_getElem?_getD,
      Nat.sub_zero, getD_pieceBytes d (by omega)]
  · rw [if_neg (by omega), if_neg hin]

end Sys2Proof.Machine
end

section
/-! The outcomes of `HSTART`, `HPUSH`, `HFIN` and `DLOAD`, and their errors in the order of R161: O26, O27, O28, O29, O30. -/
namespace Sys2Proof.Machine

open Sys2Proof.Safety

/-! ## Where the checks pass -/

theorem execHstart_of_err_zero {s : State} (blkonly : Bool) (seed : BitVec 32) (he : s.err = 0) :
    execHstart blkonly seed s = .next (answer
      { s with seed := seed, h1 := seedWord seed, h2 := seedWord seed, blkonly := blkonly
               len := 0, buf := 0, fill := 0, hact := true, dv := false } 0) := whenReady_of_err_zero _ _ he

/-- `HPUSH` where R104's checks pass. -/
theorem execHpush_of_allowed {s : State} {n : BitVec 8} {d : BitVec 128} (he : s.err = 0) (ha : s.hact = true)
    (hpos : 1 ≤ n.toNat) (hmax : n.toNat ≤ 16) (hraw : s.blkonly = true → n.toNat = 16)
    (hlen : s.len.toNat + n.toNat ≤ 2 ^ 64 - 1) :
    execHpush n d s = .next (answer
      { absorb s (pieceBytes n d) with len := BitVec.ofNat 64 (s.len.toNat + n.toNat) } 0) := by
  have hsum : s.len + n.setWidth 64 = BitVec.ofNat 64 (s.len.toNat + n.toNat) := by
    rw [BitVec.ofNat_add, BitVec.ofNat_toNat, BitVec.ofNat_toNat, BitVec.setWidth_eq]
  rw [execHpush, if_neg (by omega), whenReady_of_err_zero _ _ he, if_neg (by simp [ha]),
    if_neg (fun hbad => hbad.2 (hraw hbad.1)), if_neg (by omega), hsum]

/-- `HFIN` where R107's check passes, the folded tail and the digest named. -/
theorem execHfin_of_active {s : State} (he : s.err = 0) (ha : s.hact = true) {t h : Word × Word}
    (ht : t = tailFold s.h1 s.h2 s.buf s.fill.toNat) (hh : h = finalize t.1 t.2 s.len) :
    execHfin s = .next (answer
      { s with h1 := h.1, h2 := h.2, buf := 0, fill := 0, hact := false, dv := true } (h.2 ++ h.1)) := by
  rw [execHfin, whenReady_of_err_zero _ _ he, if_neg (by simp [ha]), hh, ht]

theorem execDload_of_inactive {s : State} (h1 h2 : Word) (he : s.err = 0) (ha : s.hact = false) :
    execDload h1 h2 s = .next (answer { s with h1 := h1, h2 := h2, dv := true } 0) := by
  rw [execDload, whenReady_of_err_zero _ _ he, if_neg (by simp [ha])]

theorem seedWord_eq_append (seed : BitVec 32) : seedWord seed = 0#32 ++ seed :=
  BitVec.setWidth_eq_append (by decide)

/-- Settles O26: the seed is zero-extended. -/
theorem hstartBeginsAMessage : Obligations.HstartBeginsAMessage := by
  intro s blkonly seed he
  rw [← seedWord_eq_append]
  exact execHstart_of_err_zero blkonly seed he

/-- Settles O28: the fold of the tail and the eight assignments, named one by one. -/
theorem hfinProducesTheDigest : Obligations.HfinProducesTheDigest := by
  intro s he ha
  exact ⟨_, _, _, _, _, _, rfl, rfl, rfl, rfl, rfl, rfl, execHfin_of_active he ha rfl rfl⟩

/-- Settles O29: the one check of R108 passes. -/
theorem dloadLoadsTheDigest : Obligations.DloadLoadsTheDigest := fun _ h1 h2 he ha =>
  execDload_of_inactive h1 h2 he ha

/-- Settles O27: the piece fits into the buffer, or fills it. -/
theorem hpushAbsorbsTheBytes : Obligations.HpushAbsorbsTheBytes := by
  intro s n d he ha hpos hmax hraw hlen
  have hexec := execHpush_of_allowed (d := d) he ha hpos hmax hraw hlen
  have hbytes := length_pieceBytes n d
  have hlt := s.fill.isLt
  obtain ⟨h1, h2, buf, fill, e⟩ := absorb_frame s (pieceBytes n d)
  rw [e] at hexec
  refine ⟨h1, h2, buf, fill, hexec, fun hroom => ?_, fun hfull => ?_⟩
  · have hfit := e.symm.trans (absorb_of_room (by omega))
    have hfill : fill = BitVec.ofNat 4 (s.fill.toNat + (pieceBytes n d).length) := congrArg State.fill hfit
    have hbuf : buf = putBytes s.buf s.fill.toNat (pieceBytes n d) := congrArg State.buf hfit
    refine ⟨congrArg State.h1 hfit, congrArg State.h2 hfit, ?_, fun j hj => ?_⟩
    · rw [hfill, hbytes, BitVec.toNat_ofNat, Nat.mod_eq_of_lt hroom]
    · rw [hbuf]
      exact byteLane_putBytes_piece _ _ n d hj
  · have hover := e.symm.trans (absorb_of_overflow (by omega) (by omega))
    have hfill : fill = BitVec.ofNat 4 (s.fill.toNat + (pieceBytes n d).length - 16) := congrArg State.fill hover
    have hbuf : buf = putBytes 0 0 ((pieceBytes n d).drop (16 - s.fill.toNat)) := congrArg State.buf hover
    have hrest : s.fill.toNat + n.toNat - 16 = n.toNat - (16 - s.fill.toNat) := by omega
    refine ⟨⟨_, fun j hj => byteLane_putBytes_piece_take s.buf d hfull hj, congrArg (fun t => (t.h1, t.h2)) hover⟩, ?_,
      fun j hj => ?_⟩
    · rw [hfill, hbytes, BitVec.toNat_ofNat, Nat.mod_eq_of_lt (by omega)]
    · rw [hbuf, hrest]
      exact byteLane_putBytes_piece_drop n d _ hj

/-! ## The errors, in the order of R161 -/

theorem execHpush_of_inactive {s : State} {n : BitVec 8} (d : BitVec 128) (he : s.err = 0) (ha : s.hact = false)
    (hpos : 1 ≤ n.toNat) (hmax : n.toNat ≤ 16) : execHpush n d s = .next (raise s .seq (commandHead (.hpush n d))) := by
  rw [execHpush, if_neg (by omega), whenReady_of_err_zero _ _ he, if_pos ha]

theorem execHpush_of_malformed {s : State} {n : BitVec 8} (d : BitVec 128) (he : s.err = 0) (ha : s.hact = true)
    (hpos : 1 ≤ n.toNat) (hmax : n.toNat < 16) (hraw : s.blkonly = true) :
    execHpush n d s = .next (raise s .malformed (commandHead (.hpush n d))) := by
  rw [execHpush, if_neg (by omega), whenReady_of_err_zero _ _ he, if_neg (by simp [ha]), if_pos ⟨hraw, by omega⟩]

theorem execHpush_of_len {s : State} {n : BitVec 8} (d : BitVec 128) (he : s.err = 0) (ha : s.hact = true)
    (hpos : 1 ≤ n.toNat) (hmax : n.toNat ≤ 16) (hraw : s.blkonly = true → n.toNat = 16)
    (hlen : 2 ^ 64 - 1 < s.len.toNat + n.toNat) :
    execHpush n d s = .next (raise s .len (commandHead (.hpush n d))) := by
  rw [execHpush, if_neg (by omega), whenReady_of_err_zero _ _ he, if_neg (by simp [ha]),
    if_neg (fun hbad => hbad.2 (hraw hbad.1)), if_pos hlen]

theorem execHfin_of_inactive {s : State} (he : s.err = 0) (ha : s.hact = false) :
    execHfin s = .next (raise s .seq (commandHead .hfin)) := by
  rw [execHfin, whenReady_of_err_zero _ _ he, if_pos ha]

theorem execDload_of_active {s : State} (h1 h2 : Word) (he : s.err = 0) (ha : s.hact = true) :
    execDload h1 h2 s = .next (raise s .seq (commandHead (.dload h1 h2))) := by
  rw [execDload, whenReady_of_err_zero _ _ he, if_pos ha]

/-- Settles O30: in each case the checks before the failing one pass. -/
theorem hashCommandErrors : Obligations.HashCommandErrors := by
  intro s he
  refine ⟨fun ha => ⟨fun n d hpos hmax => ?_, ?_⟩, fun ha => ⟨fun n d hpos hmax hraw => ?_,
    fun n d hpos hmax hraw hlen => ?_, fun h1 h2 => ?_⟩⟩
  · exact execHpush_of_inactive d he ha hpos hmax
  · exact execHfin_of_inactive he ha
  · exact execHpush_of_malformed d he ha hpos hmax hraw
  · exact execHpush_of_len d he ha hpos hmax hraw hlen
  · exact execDload_of_active h1 h2 he ha

end Sys2Proof.Machine
end

section
/-! A message absorbed piece by piece has gone through the blocks and the tail of R109: O31. -/
namespace Sys2Proof.Machine

open Sys2Proof.Safety

/-! ## The blocks of a message -/

/-- Block `q` is the two halves of the bytes from `16q` on, packed. -/
theorem messageBlock_eq (b : List Byte) (q : Nat) :
    messageBlock b q = (loHalf (packBytes (b.drop (16 * q))), hiHalf (packBytes (b.drop (16 * q)))) := by
  rw [messageBlock, loHalf_packBytes_take, loHalf_packBytes_take, ← List.drop_drop, loHalf_packBytes_drop]

/-- Bytes after a block do not change it. -/
theorem messageBlock_append {b : List Byte} (c : List Byte) {q : Nat} (h : 16 * (q + 1) ≤ b.length) :
    messageBlock (b ++ c) q = messageBlock b q := by
  rw [messageBlock, messageBlock, List.drop_append_of_le_length (by omega), List.drop_append_of_le_length (by omega),
    List.take_append_of_le_length (by rw [List.length_drop]; omega),
    List.take_append_of_le_length (by rw [List.length_drop]; omega)]

theorem hashBlocks_append (h : Word × Word) {b : List Byte} (c : List Byte) {n : Nat} (hn : 16 * n ≤ b.length) :
    hashBlocks h (b ++ c) n = hashBlocks h b n := by
  induction n with
  | zero => rfl
  | succ n ih => rw [hashBlocks, hashBlocks, ih (by omega), messageBlock_append c hn]

/-! ## The state inside a message -/

/-- `s` with the hash state it has once the bytes `b` of a message with this seed are absorbed (R104, R109): the whole
blocks in `H1` and `H2`, the tail in `BUF`. -/
def absorbed (s : State) (seed : BitVec 32) (b : List Byte) : State :=
  { s with h1 := (hashBlocks (seedWord seed, seedWord seed) b (b.length / 16)).1
           h2 := (hashBlocks (seedWord seed, seedWord seed) b (b.length / 16)).2
           buf := packBytes (b.drop (16 * (b.length / 16)))
           fill := BitVec.ofNat 4 b.length }

theorem absorbed_fill (s : State) (seed : BitVec 32) (b : List Byte) :
    (absorbed s seed b).fill.toNat = b.length % 16 := BitVec.toNat_ofNat ..

/-- The hash state follows the message byte by byte: a byte enters the tail, or completes a block. -/
theorem absorbByte_absorbed (s : State) (seed : BitVec 32) (b : List Byte) (x : Byte) :
    absorbByte (absorbed s seed b) x = absorbed s seed (b ++ [x]) := by
  have hfill := absorbed_fill s seed b
  have hlength : (b ++ [x]).length = b.length + 1 := List.length_append
  have htail : (b.drop (16 * (b.length / 16))).length = b.length % 16 := by rw [List.length_drop]; omega
  have hbuf : setByteLane (absorbed s seed b).buf (absorbed s seed b).fill.toNat x =
      packBytes ((b ++ [x]).drop (16 * (b.length / 16))) := by
    rw [hfill, ← htail, List.drop_append_of_le_length (by omega)]
    exact setByteLane_packBytes _ x
  have hblocks := hashBlocks_append (seedWord seed, seedWord seed) [x] (b := b) (n := b.length / 16) (by omega)
  by_cases hfull : (absorbed s seed b).fill.toNat + 1 = 16
  · have hcount : (b ++ [x]).length / 16 = b.length / 16 + 1 := by omega
    have hempty : (b ++ [x]).drop (16 * (b.length / 16 + 1)) = [] := List.drop_eq_nil_of_le (by omega)
    have hzero : BitVec.ofNat 4 (b ++ [x]).length = 0 := by
      apply BitVec.eq_of_toNat_eq
      rw [hlength, BitVec.toNat_ofNat]
      exact (by omega : (b.length + 1) % 16 = 0)
    rw [absorbByte_of_full x hfull, hbuf]
    conv_rhs => rw [absorbed, hcount, hempty, hzero, hashBlocks, hblocks, messageBlock_eq]
    rfl
  · have hcount : (b ++ [x]).length / 16 = b.length / 16 := by omega
    rw [absorbByte_of_room x hfull, hbuf]
    conv_rhs => rw [absorbed, hcount, hblocks, hlength, BitVec.ofNat_add]
    rfl

theorem absorb_absorbed (s : State) (seed : BitVec 32) (b bs : List Byte) :
    absorb (absorbed s seed b) bs = absorbed s seed (b ++ bs) := by
  induction bs generalizing b with
  | nil => rw [absorb_nil, List.append_nil]
  | cons x bs ih => rw [absorb_cons, absorbByte_absorbed, ih, List.append_assoc, List.singleton_append]

/-- `s` in the middle of a message with this seed, of which the bytes `b` are absorbed, `LEN` included. -/
def insideMessage (s : State) (seed : BitVec 32) (b : List Byte) : State :=
  absorbed { s with len := BitVec.ofNat 64 b.length } seed b

/-- `s` with `n` more commands answered `OK` with no data. -/
def answeredOk (s : State) (n : Nat) : State :=
  { s with hostOut := s.hostOut ++ List.replicate n { st := 0x00#8, r := 0 } }

theorem answeredOk_answeredOk (s : State) (m n : Nat) : answeredOk (answeredOk s m) n = answeredOk s (m + n) := by
  simp only [answeredOk, List.append_assoc, List.replicate_append_replicate]

/-- What `HSTART` writes of `s` outside the hash state, its answer included (R101). -/
def messageStarted (s : State) (blkonly : Bool) (seed : BitVec 32) : State :=
  answeredOk { s with seed := seed, blkonly := blkonly, hact := true, dv := false } 1

/-! ## The commands of a message -/

theorem exec_hstart_insideMessage {s : State} (blkonly : Bool) (seed : BitVec 32) (he : s.err = 0) :
    exec (.hstart blkonly seed) s = .next (insideMessage (messageStarted s blkonly seed) seed []) :=
  execHstart_of_err_zero blkonly seed he

/-- The `HPUSH` of a piece is one more `OK` and one more piece of the message (R104). -/
theorem exec_pushPiece_insideMessage {s : State} {seed : BitVec 32} {b p : List Byte} (he : s.err = 0)
    (ha : s.hact = true) (hp : 1 ≤ p.length ∧ p.length ≤ 16) (hraw : s.blkonly = true → p.length = 16)
    (hlen : (b ++ p).length ≤ 2 ^ 64 - 1) :
    exec (pushPiece p) (insideMessage s seed b) = .next (insideMessage (answeredOk s 1) seed (b ++ p)) := by
  obtain ⟨hpos, hmax⟩ := hp
  rw [List.length_append] at hlen
  have hcount : (BitVec.ofNat 8 p.length).toNat = p.length := Nat.mod_eq_of_lt (by omega)
  have hsum : (insideMessage s seed b).len.toNat + p.length = (b ++ p).length := by
    rw [List.length_append]
    exact congrArg (· + p.length) (Nat.mod_eq_of_lt (by omega))
  have hexec := execHpush_of_allowed (s := insideMessage s seed b) (n := BitVec.ofNat 8 p.length) (d := packBytes p)
    he ha (by omega) (by omega) (fun h => hcount.trans (hraw h)) (by rw [hcount, hsum, List.length_append]; exact hlen)
  rw [pieceBytes_packBytes hmax, hcount, hsum, insideMessage, absorb_absorbed] at hexec
  exact hexec

theorem runCommands_cons_of_next {i : Instr} {is : List Instr} {s t : State} (h : exec i s = .next t) :
    runCommands (i :: is) s = runCommands is t := by
  rw [runCommands, h]

theorem runCommands_pushPieces {s : State} (seed : BitVec 32) {b : List Byte} {pieces : List (List Byte)}
    (rest : List Instr) (he : s.err = 0) (ha : s.hact = true) (hp : ∀ p ∈ pieces, 1 ≤ p.length ∧ p.length ≤ 16)
    (hraw : s.blkonly = true → ∀ p ∈ pieces, p.length = 16) (hlen : (b ++ pieces.flatten).length ≤ 2 ^ 64 - 1) :
    runCommands (pieces.map pushPiece ++ rest) (insideMessage s seed b) =
      runCommands rest (insideMessage (answeredOk s pieces.length) seed (b ++ pieces.flatten)) := by
  induction pieces generalizing s b with
  | nil => simp [answeredOk]
  | cons p pieces ih =>
    rw [List.flatten_cons, ← List.append_assoc] at hlen
    have hfirst := exec_pushPiece_insideMessage (s := s) (seed := seed) (b := b) he ha (hp p List.mem_cons_self)
      (fun h => hraw h p List.mem_cons_self) (by rw [List.length_append] at hlen; omega)
    rw [List.map_cons, List.cons_append, runCommands_cons_of_next hfirst,
      ih (s := answeredOk s 1) he ha (fun q hq => hp q (List.mem_cons_of_mem p hq))
        (fun h q hq => hraw h q (List.mem_cons_of_mem p hq)) hlen,
      answeredOk_answeredOk, List.append_assoc, List.flatten_cons, List.length_cons, Nat.add_comm]

/-- `HFIN` leaves and answers the hash of the bytes absorbed (R107, R109). -/
theorem exec_hfin_insideMessage {s : State} (seed : BitVec 32) (b : List Byte) (he : s.err = 0) (ha : s.hact = true) :
    exec .hfin (insideMessage s seed b) = .next
      { s with h1 := (hashMessage seed b).1, h2 := (hashMessage seed b).2, len := BitVec.ofNat 64 b.length
               buf := 0, fill := 0, hact := false, dv := true
               hostOut := s.hostOut ++ [{ st := 0x00#8, r := (hashMessage seed b).2 ++ (hashMessage seed b).1 }] } :=
  execHfin_of_active (s := insideMessage s seed b) he ha (h := hashMessage seed b) rfl rfl

/-- Settles O31: by induction on the pieces the hash state is that of the bytes so far, and `HFIN` finishes it. -/
theorem hashCommandsComputeTheHash : Obligations.HashCommandsComputeTheHash := by
  intro seed blkonly pieces s he hp hraw hlen
  have hpush := runCommands_pushPieces (s := messageStarted s blkonly seed) (b := []) seed [.hfin] he rfl hp hraw hlen
  have hfin := exec_hfin_insideMessage (s := answeredOk (messageStarted s blkonly seed) pieces.length) seed
    pieces.flatten he rfl
  have hrun := (runCommands_cons_of_next (exec_hstart_insideMessage blkonly seed he)).trans
    (hpush.trans (runCommands_cons_of_next hfin))
  refine ⟨_, hrun, rfl, ?_, rfl⟩
  rw [messageStarted, answeredOk_answeredOk, Nat.add_comm]
  rfl

end Sys2Proof.Machine
end

section
/-! The deriver in integer arithmetic and the range of what it derives (R120, R122): O33, O34. -/
namespace Sys2Proof.Machine

/-! ## The sum `t` and its signed absolute value -/

/-- Below `K` the difference `K - i` does not wrap, so `t` is the integer sum modulo 2^64. -/
theorem toNat_affineSum (h1 h2 : Word) {k i : BitVec 16} (hik : i.toNat ≤ k.toNat) :
    (affineSum h1 h2 k i).toNat = ((k.toNat - i.toNat) * h1.toNat + i.toNat * h2.toNat) % 2 ^ 64 := by
  have hk : (k.setWidth 64).toNat = k.toNat := BitVec.toNat_setWidth_of_le (by decide)
  have hi : (i.setWidth 64).toNat = i.toNat := BitVec.toNat_setWidth_of_le (by decide)
  have hsub : (k.setWidth 64 - i.setWidth 64).toNat = k.toNat - i.toNat := by
    rw [BitVec.toNat_sub_of_le (by rw [BitVec.le_def, hk, hi]; exact hik), hk, hi]
  rw [affineSum, BitVec.toNat_add, BitVec.toNat_mul, BitVec.toNat_mul, hsub, hi, ← Nat.add_mod]

theorem msb_eq_false_of_nonneg {t : Word} (h : 0 ≤ t.toInt) : t.msb = false := by
  rw [BitVec.msb_eq_toInt, decide_eq_false (not_lt.2 h)]

theorem toNat_magicOf_of_nonneg (am : Config.AbsMin) {t : Word} (h : 0 ≤ t.toInt) :
    ((magicOf am t).toNat : Int) = t.toInt := by
  have hmsb := msb_eq_false_of_nonneg h
  rw [magicOf, if_pos hmsb, BitVec.toInt_eq_toNat_of_msb hmsb]

/-- Above the most negative integer `-t` does not wrap, so its unsigned and its signed reading are one. -/
theorem toNat_magicOf_of_neg (am : Config.AbsMin) {t : Word} (hmin : -(2 ^ 63) < t.toInt) (h : t.toInt < 0) :
    ((magicOf am t).toNat : Int) = -t.toInt := by
  have hmsb : t.msb = true := by rw [BitVec.msb_eq_toInt, decide_eq_true h]
  have hne : t ≠ 0x8000000000000000#64 := by rintro rfl; exact absurd hmin (by decide)
  have hneg : (-t).toInt = -t.toInt := BitVec.toInt_neg_of_ne_intMin hne
  have hnonneg : 0 ≤ (-t).toInt := by omega
  rw [magicOf, if_neg (by simp [hmsb]), if_neg hne, ← hneg,
    BitVec.toInt_eq_toNat_of_msb (msb_eq_false_of_nonneg hnonneg)]

theorem magicOf_of_min (am : Config.AbsMin) {t : Word} (h : t.toInt = -(2 ^ 63)) : magicOf am t = absMinMagic am := by
  obtain rfl : t = 0x8000000000000000#64 := BitVec.eq_of_toInt_eq h
  rfl

theorem toNat_deriveValue (am : Config.AbsMin) (h1 h2 : Word) (k : BitVec 16) (m : Word) (i : BitVec 16) :
    (deriveValue am h1 h2 k m i).toNat = (magicOf am (affineSum h1 h2 k i)).toNat % m.toNat := BitVec.toNat_umod

/-- Settles O33: `t` is `affineSum` and `magic` is `magicOf` of it, in the three cases of its sign. -/
theorem derivedIndexInIntegers : Obligations.DerivedIndexInIntegers := by
  intro am h1 h2 m k i hik _
  refine ⟨affineSum h1 h2 k i, (magicOf am (affineSum h1 h2 k i)).toNat, toNat_affineSum h1 h2 hik.le,
    toNat_magicOf_of_nonneg am, toNat_magicOf_of_neg am, fun hmin => ?_, toNat_deriveValue am h1 h2 k m i⟩
  rw [magicOf_of_min am hmin]
  cases am <;> rfl

/-! ## The range law -/

/-- The word of a bit below `m` is one of the `ceil(m / 64)` words that hold filter bits. -/
theorem wordIndex_lt_of_lt {idx m : Word} (h : idx.toNat < m.toNat) : wordIndex idx < (m.toNat + 63) / 64 := by
  unfold wordIndex
  omega

theorem magicOf_zero (am : Config.AbsMin) : magicOf am 0 = 0 := rfl

theorem affineSum_of_zero_digest (k i : BitVec 16) : affineSum 0 0 k i = 0 := by
  simp [affineSum]

theorem deriveValue_of_zero_digest (am : Config.AbsMin) (k : BitVec 16) (m : Word) (i : BitVec 16) :
    deriveValue am 0 0 k m i = 0 := by
  rw [deriveValue, affineSum_of_zero_digest, magicOf_zero]
  exact BitVec.zero_umod

/-- Settles O34: the index is a remainder by `m`, and everything else follows from that. -/
theorem derivedIndexIsAFilterBit : Obligations.DerivedIndexIsAFilterBit := by
  intro am h1 h2 m k i hm
  have hne : m ≠ 0 := by rintro rfl; exact absurd hm (by decide)
  have hlt := deriveValue_lt am h1 h2 k m i hne
  have hword := wordIndex_lt_of_lt hlt
  refine ⟨hlt, hword, Nat.succ_lt_succ hword, fun hone => ?_, fun hz1 hz2 => ?_⟩
  · subst hone
    exact BitVec.umod_one
  · rw [hz1, hz2]
    exact deriveValue_of_zero_digest am k m i

end Sys2Proof.Machine
end

section
/-! `DERIVE`: its outcome where R121 allows it, and its errors (R161): O35, O36. -/
namespace Sys2Proof.Machine

open Sys2Proof.Safety

/-- A 64-bit value in a response stands below 64 zero bits (R71). -/
theorem setWidth_eq_zero_append (v : Word) : v.setWidth 128 = 0#64 ++ v := BitVec.setWidth_eq_append (by decide)

/-- `DERIVE` where R121's checks pass. -/
theorem execDerive_of_allowed {s : State} {i : BitVec 16} {v : Word} (he : s.err = 0) (hp : s.fphase ≠ .unconf)
    (hd : s.dv = true) (hr : i.toNat < s.k.toNat) (hv : deriveIndex s i = .ok v) :
    execDerive i s = .next (answer { s with idx := v } (v.setWidth 128)) := by
  rw [execDerive, whenReady_of_err_zero _ _ he, if_neg hp, if_neg (by simp [hd]), if_neg (by omega), hv]

/-- Settles O35: by R41 a configured filter has `NBITS ≠ 0`, so the deriver answers. -/
theorem deriveAnswersTheIndex : Obligations.DeriveAnswersTheIndex := by
  intro s i hinv he hp hd hr
  have hv := deriveIndex_of_ne_zero s i (mt hinv.unconf_iff.2 hp)
  rw [← setWidth_eq_zero_append]
  exact execDerive_of_allowed he hp hd hr hv

/-! ## The errors, in the order of R161 -/

theorem execDerive_of_unconf {s : State} (i : BitVec 16) (he : s.err = 0) (hp : s.fphase = .unconf) :
    execDerive i s = .next (raise s .seq (commandHead (.derive i))) := by
  rw [execDerive, whenReady_of_err_zero _ _ he, if_pos hp]

theorem execDerive_of_no_digest {s : State} (i : BitVec 16) (he : s.err = 0) (hp : s.fphase ≠ .unconf)
    (hd : s.dv = false) : execDerive i s = .next (raise s .seq (commandHead (.derive i))) := by
  rw [execDerive, whenReady_of_err_zero _ _ he, if_neg hp, if_pos hd]

theorem execDerive_of_range {s : State} {i : BitVec 16} (he : s.err = 0) (hp : s.fphase ≠ .unconf)
    (hd : s.dv = true) (hr : s.k.toNat ≤ i.toNat) :
    execDerive i s = .next (raise s .range (commandHead (.derive i))) := by
  rw [execDerive, whenReady_of_err_zero _ _ he, if_neg hp, if_neg (by simp [hd]), if_pos hr]

/-- Settles O36: in each case the checks before the failing one pass. -/
theorem deriveErrors : Obligations.DeriveErrors := by
  intro s i he
  refine ⟨fun hp => ?_, fun hp hd => ?_, fun hp hd hr => ?_⟩
  · exact execDerive_of_unconf i he hp
  · exact execDerive_of_no_digest i he hp hd
  · exact execDerive_of_range he hp hd hr

end Sys2Proof.Machine
end

section
/-! The loops of `TRAIN` and `QUERY` where no turn is a fault: how far they get and what they leave (R133, R134). -/
namespace Sys2Proof.Machine

open Sys2Proof.Safety

/-! ## One turn -/

/-- Iteration `i` of a loop is no fault: the deriver answers, and the word of its index is inside `MEM` and the
allocation. -/
def TurnDefined (s : State) (i : Nat) : Prop := s.nbits ≠ 0 ∧ indexInside s (indexOf s i)

theorem deriveIndex_of_turnDefined {s : State} {i : Nat} (h : TurnDefined s i) :
    deriveIndex s (BitVec.ofNat 16 i) = .ok (indexOf s i) := deriveIndex_of_ne_zero s _ h.1

theorem toNat_indexOf_lt {s : State} (h : s.nbits ≠ 0) (i : Nat) : (indexOf s i).toNat < s.nbits.toNat :=
  deriveValue_lt _ _ _ _ _ _ h

/-- The allocation of `CFG` holds every filter bit (R35, R131). -/
theorem toNat_le_allocWords (nbits : Word) : nbits.toNat ≤ 64 * allocWords nbits := by
  unfold allocWords
  omega

/-- By R41 no turn of a loop on a configured filter is a fault. -/
theorem turnDefined_of_inv {s : State} (h : Inv s) (hp : s.fphase ≠ .unconf) (i : Nat) : TurnDefined s i := by
  have hsize : s.nbits ≠ 0 := mt h.unconf_iff.2 hp
  obtain ⟨halloc, -, -, -⟩ := h.sizing hp
  have hbelow : (indexOf s i).toNat < 64 * s.awords.toNat := by
    rw [halloc]
    exact (toNat_indexOf_lt hsize i).trans_le (toNat_le_allocWords s.nbits)
  exact ⟨hsize, indexInside_of_inv h hp hbelow⟩

/-! ## The loop of `TRAIN` -/

theorem trainFrom_completes {s : State} (h : ∀ i, TurnDefined s i) (n i : Nat) : ∃ t, trainFrom n i s = .ok t := by
  induction n generalizing i s with
  | zero => exact ⟨s, rfl⟩
  | succ n ih =>
    obtain ⟨m, hset, -⟩ := bitSet_spec { s with idx := indexOf s i } (indexOf s i) (h i).2
    obtain ⟨t, ht⟩ := ih (s := { s with idx := indexOf s i, mem := m }) h (i + 1)
    exact ⟨t, trainFrom_succ_eq_ok.2 ⟨_, _, deriveIndex_of_turnDefined (h i), hset, ht⟩⟩

/-- A turn sets the bit of its iteration's index and writes `IDX` and `MEM` only, so that the later turns derive the
indices they would from `s`. -/
theorem trainFrom_turn {n i : Nat} {s t : State} (h : trainFrom (n + 1) i s = .ok t) :
    ∃ u, bitSet { s with idx := indexOf s i } (indexOf s i) = .ok u ∧ u = { s with idx := indexOf s i, mem := u.mem } ∧
      trainFrom n (i + 1) u = .ok t := by
  obtain ⟨v, u, hv, hu, ht⟩ := trainFrom_succ_eq_ok.1 h
  obtain rfl := indexOf_of_deriveIndex hv
  obtain ⟨-, hframe, -⟩ := bitSet_cases hu
  exact ⟨u, hu, hframe, ht⟩

/-- The loop leaves `IDX` at the index of its last iteration (R133). -/
theorem trainFrom_idx {n i : Nat} {s t : State} (h : trainFrom (n + 1) i s = .ok t) : t.idx = indexOf s (i + n) := by
  induction n generalizing i s with
  | zero =>
    obtain ⟨u, -, hframe, ht⟩ := trainFrom_turn h
    cases ht
    rw [hframe]
    rfl
  | succ n ih =>
    obtain ⟨u, -, hframe, ht⟩ := trainFrom_turn h
    rw [ih ht, hframe, Nat.add_assoc, Nat.add_comm 1]
    rfl

/-- The loop keeps every byte outside the words of the indices it derives (R133). -/
theorem trainFrom_readByte {n i a : Nat} {s t : State} (h : trainFrom n i s = .ok t)
    (ha : ∀ j, i ≤ j → j < i + n → ¬ (8 * wordIndex (indexOf s j) ≤ a ∧ a < 8 * wordIndex (indexOf s j) + 8)) :
    Memory.readByte t.mem a = Memory.readByte s.mem a := by
  induction n generalizing i s with
  | zero => cases h; rfl
  | succ n ih =>
    obtain ⟨u, hu, hframe, ht⟩ := trainFrom_turn h
    have hturn : Memory.readByte u.mem a = Memory.readByte s.mem a := by
      rw [((bitSet_eq_ok _ _ _).1 hu).2, Memory.readByte_writeWord, if_neg (ha i le_rfl (by omega))]
    refine (ih ht fun j hij hj => ?_).trans hturn
    rw [hframe]
    exact ha j (by omega) (by omega)

/-! ## The loop of `QUERY` -/

/-- `s` after a turn of `QUERY`'s loop (R134). -/
def queried (s : State) (i : Nat) : State := { s with idx := indexOf s i, probes := BitVec.ofNat 16 (i + 1) }

/-- A turn goes on where its bit is set and leaves the loop where it is not (R134). -/
theorem queryFrom_succ {s : State} {i : Nat} (h : TurnDefined s i) (n : Nat) :
    queryFrom (n + 1) i s =
      if filterBit s (indexOf s i).toNat then queryFrom n (i + 1) (queried s i) else .ok (false, queried s i) := by
  have hget : bitGet (queried s i) (indexOf s i) = .ok (if filterBit s (indexOf s i).toNat then 1#64 else 0#64) :=
    bitGet_of_inside (queried s i) _ h.2
  rw [queried] at hget
  simp only [queryFrom, deriveIndex_of_turnDefined h, hget]
  cases filterBit s (indexOf s i).toNat <;> rfl

theorem turnDefined_of_queryFrom {n i : Nat} {s : State} {r : Bool × State} (h : queryFrom (n + 1) i s = .ok r) :
    TurnDefined s i := by
  simp only [queryFrom] at h
  split at h
  next => cases h
  next v hv =>
    have hsize : s.nbits ≠ 0 := fun h0 => by rw [deriveIndex, if_pos h0] at hv; cases hv
    obtain rfl := indexOf_of_deriveIndex hv
    split at h
    next => cases h
    next hget => exact ⟨hsize, ((bitGet_eq_ok _ _ _).1 hget).1⟩

/-- A turn writes what it leaves in `IDX` and `PROBES` without reading them. -/
theorem queryFrom_succ_queried (n i j : Nat) (s : State) :
    queryFrom (n + 1) i (queried s j) = queryFrom (n + 1) i s := rfl

/-- The loop passes over the bits that are set. -/
theorem queryFrom_skip {m i : Nat} {s : State} (n : Nat) (h : ∀ i, TurnDefined s i)
    (hset : ∀ j, i ≤ j → j < i + m → filterBit s (indexOf s j).toNat = true) :
    queryFrom (m + n + 1) i s = queryFrom (n + 1) (i + m) s := by
  induction m generalizing i with
  | zero => rw [Nat.zero_add]; rfl
  | succ m ih =>
    calc queryFrom (m + 1 + n + 1) i s
        = queryFrom (m + 1 + n) (i + 1) (queried s i) := by
          rw [queryFrom_succ (h i), if_pos (hset i le_rfl (by omega))]
      _ = queryFrom (m + n + 1) (i + 1) (queried s i) := by rw [Nat.add_right_comm m 1]
      _ = queryFrom (m + n + 1) (i + 1) s := queryFrom_succ_queried ..
      _ = queryFrom (n + 1) (i + 1 + m) s := ih fun j hij hj => hset j (by omega) (by omega)
      _ = queryFrom (n + 1) (i + (m + 1)) s := by rw [Nat.add_assoc, Nat.add_comm 1]

/-- The loop leaves at the first bit that is not set, if it makes that turn. -/
theorem queryFrom_of_first_unset {m n : Nat} {s : State} (h : ∀ i, TurnDefined s i) (hmn : m < n)
    (hset : ∀ i, i < m → filterBit s (indexOf s i).toNat = true) (hclear : filterBit s (indexOf s m).toNat = false) :
    queryFrom n 0 s = .ok (false, queried s m) := by
  obtain ⟨d, rfl⟩ := Nat.exists_eq_add_of_lt hmn
  rw [queryFrom_skip d h fun j _ hj => hset j (by omega), Nat.zero_add, queryFrom_succ (h m),
    if_neg (by simp [hclear])]

/-- With every bit set the loop ends after its last turn. -/
theorem queryFrom_of_all_set {n : Nat} {s : State} (h : ∀ i, TurnDefined s i)
    (hset : ∀ i, i < n + 1 → filterBit s (indexOf s i).toNat = true) :
    queryFrom (n + 1) 0 s = .ok (true, queried s n) := by
  rw [queryFrom_skip (m := n) 0 h fun j _ hj => hset j (by omega), Nat.zero_add n, queryFrom_succ (h n),
    if_pos (hset n n.lt_succ_self)]
  rfl

/-- A loop that ends hits where every bit is set. -/
theorem queryFrom_hit {n i : Nat} {s t : State} {hit : Bool} (h : queryFrom n i s = .ok (hit, t))
    (hset : ∀ j, i ≤ j → j < i + n → filterBit s (indexOf s j).toNat = true) : hit = true := by
  induction n generalizing i s with
  | zero => cases h; rfl
  | succ n ih =>
    rw [queryFrom_succ (turnDefined_of_queryFrom h), if_pos (hset i le_rfl (by omega))] at h
    exact ih h fun j hij hj => hset j (by omega) (by omega)

end Sys2Proof.Machine
end

section
/-! `CFG`, `SEAL`, `TRAIN` and `QUERY` where R131 to R134 allow them: O37, O38, O39, O40, O41, O42. -/
namespace Sys2Proof.Machine

open Sys2Proof.Safety

/-! ## `CFG` and `SEAL` -/

/-- `CFG` where R131's checks pass. -/
theorem execCfg_of_clearWords {s t : State} {nbits : Word} {k : BitVec 16} (he : s.err = 0) (hn : nbits ≠ 0)
    (hw : allocWords nbits ≤ s.inst.nwords.toNat) (hk : k ≠ 0) (hm : k.toNat ≤ s.inst.kMax.toNat)
    (ht : clearWords { s with nbits := nbits, k := k, awords := BitVec.ofNat 32 (allocWords nbits) }
      (allocWords nbits) = .ok t) :
    execCfg nbits k s = .next (answer { t with fphase := .training, result := false, probes := 0, idx := 0 }
      (t.awords.setWidth 128)) := by
  rw [execCfg, whenReady_of_err_zero _ _ he, if_neg hn, if_neg (by omega), if_neg hk, if_neg (by omega), ht]

theorem ne_zero_of_one_le_toNat {n : Nat} {v : BitVec n} (h : 1 ≤ v.toNat) : v ≠ 0 := by
  rintro rfl
  simp at h

/-- Settles O37: the words cleared exist and are those allocated, so the clearing loop completes. -/
theorem cfgMakesAnEmptyFilter : Obligations.CfgMakesAnEmptyFilter := by
  intro s nbits k he hn hw hk hm
  have hexact : (BitVec.ofNat 32 (allocWords nbits)).toNat = allocWords nbits := toNat_allocWords hw
  have hanswer : (BitVec.ofNat 32 (allocWords nbits)).setWidth 128 = BitVec.ofNat 128 (allocWords nbits) := by
    rw [← BitVec.ofNat_toNat, hexact]
  obtain ⟨m, hclear, hbytes, -, -⟩ := clearWords_spec
    { s with nbits := nbits, k := k, awords := BitVec.ofNat 32 (allocWords nbits) } (allocWords nbits) hexact.ge hw
  have hexec := execCfg_of_clearWords he (ne_zero_of_one_le_toNat hn) hw (ne_zero_of_one_le_toNat hk) hm hclear
  rw [hanswer] at hexec
  exact ⟨m, hexec, fun a ha => (hbytes a).trans (if_pos ha), fun a ha => (hbytes a).trans (if_neg ha.not_gt)⟩

/-- Settles O38: in TRAINING both checks of `SEAL` pass. -/
theorem sealEndsConstruction : Obligations.SealEndsConstruction := by
  intro s he hp
  show execSeal s = _
  rw [execSeal, whenReady_of_err_zero _ _ he, if_neg (by simp [hp])]
  rfl

/-! ## `TRAIN` -/

/-- Settles O39: by R41 the loop completes, and each part is what the loop leaves. -/
theorem trainSetsTheDerivedBits : Obligations.TrainSetsTheDerivedBits := by
  intro s hinv he hp hd
  have hconf : s.fphase ≠ .unconf := by rw [hp]; decide
  obtain ⟨-, -, hk, -⟩ := hinv.sizing hconf
  obtain ⟨u, hu⟩ := trainFrom_completes (turnDefined_of_inv hinv hconf) s.k.toNat 0
  have hexec := execTrain_of_trainFrom he hp hd hu
  have hframe := trainFrom_frame _ _ _ _ hu
  have hidx : u.idx = indexOf s (s.k.toNat - 1) := by
    rw [← Nat.sub_add_cancel hk] at hu
    rw [trainFrom_idx hu, Nat.zero_add]
  have hbits (j : Nat) : filterBit u j = true ↔ filterBit s j = true ∨ isIndexBelow s s.k.toNat j := by
    simpa only [Nat.zero_add, isIndexBelow] using trainFrom_filterBit_iff hu
  rw [hframe, hidx] at hexec
  exact ⟨u.mem, hexec, hbits, fun a ha => trainFrom_readByte hu fun i _ hi => ha i (by omega)⟩

/-! ## `QUERY` -/

/-- Settles O40: the NULL form is answered before the digest is asked for. -/
theorem queryNullAnswersAbsent : Obligations.QueryNullAnswersAbsent := by
  intro s he hp
  show execQuery true s = _
  rw [execQuery, whenReady_of_err_zero _ _ he, if_neg hp, if_pos rfl]
  rfl

/-- A plain `QUERY` where R134's checks pass. -/
theorem execQuery_of_queryFrom {s u : State} {hit : Bool} (he : s.err = 0) (hp : s.fphase ≠ .unconf) (hd : s.dv = true)
    (hu : queryFrom s.k.toNat 0 s = .ok (hit, u)) :
    execQuery false s = .next (answer { u with result := hit } (queryAnswer hit u.probes u.idx)) := by
  rw [execQuery, whenReady_of_err_zero _ _ he, if_neg hp, if_neg (by simp), if_neg (by simp [hd]), hu]

/-- The layout of a plain `QUERY`'s answer, grouped from the low end (R134). -/
theorem queryAnswer_eq (hit : Bool) (probes : BitVec 16) (idx : Word) :
    queryAnswer hit probes idx = idx ++ (0#32 ++ (probes ++ (0#15 ++ flagBit hit))) := by
  simp only [queryAnswer, BitVec.append_assoc, BitVec.cast_eq]

/-- Settles O41: by R41 the loop makes its `K` turns, and the last leaves `PROBES` at `K`. -/
theorem queryHitsWhenAllBitsAreSet : Obligations.QueryHitsWhenAllBitsAreSet := by
  intro s hinv he hp hd hset
  obtain ⟨-, -, hk, -⟩ := hinv.sizing hp
  have hcount : s.k.toNat - 1 + 1 = s.k.toNat := Nat.sub_add_cancel hk
  have hloop := queryFrom_of_all_set (n := s.k.toNat - 1) (turnDefined_of_inv hinv hp) (hcount.symm ▸ hset)
  rw [hcount, queried, hcount, BitVec.ofNat_toNat, BitVec.setWidth_eq] at hloop
  have hexec := execQuery_of_queryFrom he hp hd hloop
  rw [queryAnswer_eq] at hexec
  exact hexec

/-- Settles O42: by R41 the loop reaches iteration `n` and leaves there. -/
theorem queryMissesAtTheFirstUnsetBit : Obligations.QueryMissesAtTheFirstUnsetBit := by
  intro s n hinv he hp hd hn hset hclear
  have hloop := queryFrom_of_first_unset (turnDefined_of_inv hinv hp) hn hset hclear
  have hexec := execQuery_of_queryFrom he hp hd hloop
  rw [queryAnswer_eq] at hexec
  exact hexec

end Sys2Proof.Machine
end

section
/-! The errors of the filter commands, in the order of R161: O43. -/
namespace Sys2Proof.Machine

open Sys2Proof.Safety

theorem execCfg_of_bad_size {s : State} {nbits : Word} {k : BitVec 16} (he : s.err = 0)
    (h : nbits = 0 ∨ s.inst.nwords.toNat < allocWords nbits ∨ k = 0) :
    execCfg nbits k s = .next (raise s .cfg (commandHead (.cfg nbits k))) := by
  rw [execCfg, whenReady_of_err_zero _ _ he]
  by_cases hn : nbits = 0
  · rw [if_pos hn]
  by_cases hw : s.inst.nwords.toNat < allocWords nbits
  · rw [if_neg hn, if_pos hw]
  · have hk : k = 0 := (h.resolve_left hn).resolve_left hw
    rw [if_neg hn, if_neg hw, if_pos hk]

theorem execCfg_of_unsat {s : State} {nbits : Word} {k : BitVec 16} (he : s.err = 0) (hn : nbits ≠ 0)
    (hw : allocWords nbits ≤ s.inst.nwords.toNat) (hm : s.inst.kMax.toNat < k.toNat) :
    execCfg nbits k s = .next (raise s .unsat (commandHead (.cfg nbits k))) := by
  have hk : k ≠ 0 := ne_zero_of_one_le_toNat (by omega)
  rw [execCfg, whenReady_of_err_zero _ _ he, if_neg hn, if_neg (by omega), if_neg hk, if_pos hm]

theorem execSeal_of_not_training {s : State} (he : s.err = 0) (hp : s.fphase ≠ .training) :
    execSeal s = .next (raise s .seq (commandHead .sealFilter)) := by
  rw [execSeal, whenReady_of_err_zero _ _ he, if_pos hp]

theorem execTrain_of_unconf {s : State} (he : s.err = 0) (hp : s.fphase = .unconf) :
    execTrain s = .next (raise s .seq (commandHead .train)) := by
  rw [execTrain, whenReady_of_err_zero _ _ he, if_pos hp]

theorem execTrain_of_sealed {s : State} (he : s.err = 0) (hp : s.fphase = .sealed) :
    execTrain s = .next (raise s .sealed (commandHead .train)) := by
  rw [execTrain, whenReady_of_err_zero _ _ he, if_neg (by simp [hp]), if_pos hp]

theorem execTrain_of_no_digest {s : State} (he : s.err = 0) (hp : s.fphase = .training) (hd : s.dv = false) :
    execTrain s = .next (raise s .seq (commandHead .train)) := by
  rw [execTrain, whenReady_of_err_zero _ _ he, if_neg (by simp [hp]), if_neg (by simp [hp]), if_pos hd]

theorem execQuery_of_unconf {s : State} (null : Bool) (he : s.err = 0) (hp : s.fphase = .unconf) :
    execQuery null s = .next (raise s .seq (commandHead (.query null))) := by
  rw [execQuery, whenReady_of_err_zero _ _ he, if_pos hp]

theorem execQuery_of_no_digest {s : State} (he : s.err = 0) (hp : s.fphase ≠ .unconf) (hd : s.dv = false) :
    execQuery false s = .next (raise s .seq (commandHead (.query false))) := by
  rw [execQuery, whenReady_of_err_zero _ _ he, if_neg hp, if_neg (by simp), if_pos hd]

/-- Settles O43: in each case the checks before the failing one pass. -/
theorem filterCommandErrors : Obligations.FilterCommandErrors := by
  intro s he
  refine ⟨fun nbits k => ⟨fun h => ?_, fun hn hw hm => ?_⟩, fun hp => ?_, fun hp => ⟨?_, ?_, ?_⟩, fun hp => ?_,
    fun hp hd => ?_, fun hp hd => ?_⟩
  · exact execCfg_of_bad_size he h
  · exact execCfg_of_unsat he (ne_zero_of_one_le_toNat hn) hw hm
  · exact execSeal_of_not_training he hp
  · exact execTrain_of_unconf he hp
  · exact execQuery_of_unconf false he hp
  · exact execQuery_of_unconf true he hp
  · exact execTrain_of_sealed he hp
  · exact execTrain_of_no_digest he hp hd
  · exact execQuery_of_no_digest he hp hd

end Sys2Proof.Machine
end

section
/-! The phase under every command and step (R27, R130): O51. -/
namespace Sys2Proof.Machine

open Sys2Proof.Safety

theorem TurnedAway.fphase_eq {s t : State} {head : BitVec 16} (h : TurnedAway s t head) : t.fphase = s.fphase := by
  rw [h.eq_frame]

/-- No command but `CFG` and `SEAL` writes the phase. -/
theorem exec_fphase {c : Instr} {s t : State} (hcfg : isCfg c = false) (hseal : c ≠ .sealFilter)
    (h : exec c s = .next t) : t.fphase = s.fphase := by
  cases c with
  | cfg nbits k => exact nomatch hcfg
  | sealFilter => exact absurd rfl hseal
  | rdreg rn =>
    rcases execRdreg_cases rn s t h with ⟨-, ha⟩ | ⟨_, -, rfl⟩
    · exact ha.fphase_eq
    · rfl
  | errclr => cases h; rfl
  | bget idx =>
    rcases execBget_cases idx s t h with ha | ⟨-, -, -, -, rfl⟩
    · exact ha.fphase_eq
    · rfl
  | bset idx =>
    rcases execBset_cases idx s t h with ha | ⟨-, -, -, -, u, hu, rfl⟩
    · exact ha.fphase_eq
    · rw [((bitSet_eq_ok s idx u).1 hu).2]
      rfl
  | hstart blkonly seed =>
    rcases execHstart_cases blkonly seed s t h with ha | ⟨-, rfl⟩
    · exact ha.fphase_eq
    · rfl
  | hpush n d =>
    rcases execHpush_cases n d s t h with ha | ⟨-, -, -, -, -, -, rfl⟩
    · exact ha.fphase_eq
    · obtain ⟨h1, h2, buf, fill, e⟩ := absorb_frame s (pieceBytes n d)
      rw [e]
      rfl
  | hfin =>
    rcases execHfin_cases s t h with ha | ⟨-, -, h1, h2, rfl, -⟩
    · exact ha.fphase_eq
    · rfl
  | dload h1 h2 =>
    rcases execDload_cases h1 h2 s t h with ha | ⟨-, -, rfl⟩
    · exact ha.fphase_eq
    · rfl
  | derive i =>
    rcases execDerive_cases i s t h with ha | ⟨-, -, -, -, -, rfl⟩
    · exact ha.fphase_eq
    · rfl
  | train =>
    rcases execTrain_cases s t h with ha | ⟨-, -, -, u, hu, rfl⟩
    · exact ha.fphase_eq
    · rw [trainFrom_frame _ _ _ _ hu]
      rfl
  | query null =>
    rcases execQuery_cases null s t h with ha | ⟨-, -, -, rfl⟩ | ⟨-, -, -, -, hit, u, hu, rfl⟩
    · exact ha.fphase_eq
    · rfl
    · rw [queryFrom_frame _ _ _ _ _ hu]
      rfl

/-- The arrows of R130 that commands take: `CFG` from any phase, `SEAL` from TRAINING. -/
theorem exec_fphase_cases {c : Instr} {s t : State} (h : exec c s = .next t) :
    t.fphase = s.fphase ∨ (isCfg c = true ∧ t.fphase = .training) ∨
      (c = .sealFilter ∧ s.fphase = .training ∧ t.fphase = .sealed) := by
  by_cases hcfg : isCfg c = true
  · obtain ⟨nbits, k, rfl⟩ := isCfg_iff.1 hcfg
    rcases execCfg_cases nbits k s t h with ha | ⟨-, -, -, -, -, -, m, rfl, -⟩
    · exact .inl ha.fphase_eq
    · exact .inr (.inl ⟨rfl, rfl⟩)
  by_cases hseal : c = .sealFilter
  · subst hseal
    rcases execSeal_cases s t h with ha | ⟨-, hp, rfl⟩
    · exact .inl ha.fphase_eq
    · exact .inr (.inr ⟨rfl, hp, rfl⟩)
  exact .inl (exec_fphase (Bool.eq_false_iff.2 hcfg) hseal h)

/-- Settles O51, by what a step can do and by the command it runs. -/
theorem phaseChangesOnlyByTheDiagram : Obligations.PhaseChangesOnlyByTheDiagram := by
  intro s t h
  rcases step_cases h with ⟨-, rfl⟩ | ⟨rest, hin, rfl⟩ | ⟨w, rest, hin, ⟨i, hw, hi⟩ | ha⟩
  · exact .inl rfl
  · exact .inr (.inr (.inr ⟨rest, hin, rfl⟩))
  · obtain ⟨hword, -⟩ := encodeOfDecodeIsTheWord w i hw
    rw [← hword] at hin
    rcases exec_fphase_cases hi with hkept | ⟨hcfg, ht⟩ | ⟨rfl, hs, ht⟩
    · exact .inl hkept
    · obtain ⟨nbits, k, rfl⟩ := isCfg_iff.1 hcfg
      exact .inr (.inl ⟨nbits, k, rest, hin, ht⟩)
    · exact .inr (.inr (.inl ⟨rest, hin, hs, ht⟩))
  · exact .inl ha.fphase_eq

end Sys2Proof.Machine
end

section
/-! Runs of commands that are all answered `OK`, what an inserted element leaves in the filter, and what an empty filter
holds (R135): O45, O46. -/
namespace Sys2Proof.Machine

open Sys2Proof.Safety

/-! ## Runs answered `OK` -/

/-- The commands take `s` to `t`, and the core is never faulted before, between or after them. -/
inductive RunsOk : List Instr → State → State → Prop
  | nil {s : State} (he : s.err = 0) : RunsOk [] s s
  | cons {c : Instr} {cs : List Instr} {s u t : State} (he : s.err = 0) (hc : exec c s = .next u)
      (hcs : RunsOk cs u t) : RunsOk (c :: cs) s t

theorem runCommands_cons_eq_next {c : Instr} {cs : List Instr} {s t : State} :
    runCommands (c :: cs) s = .next t ↔ ∃ u, exec c s = .next u ∧ runCommands cs u = .next t := by
  rw [runCommands]
  cases exec c s <;> simp

/-- A run only appends responses (R71). -/
theorem runCommands_hostOut {cs : List Instr} {s t : State} (h : runCommands cs s = .next t) :
    s.hostOut <+: t.hostOut := by
  induction cs generalizing s with
  | nil => cases h; exact List.prefix_rfl
  | cons c cs ih =>
    obtain ⟨u, hu, ht⟩ := runCommands_cons_eq_next.1 h
    obtain ⟨x, hx⟩ := exec_respondsWith hu
    exact (hx.hostOut ▸ List.prefix_append _ _).trans (ih ht)

/-- The first of the responses given is `OK`, and so are the others. -/
theorem allOk_of_hostOut {s u t : State} {x : Response} (hx : u.hostOut = s.hostOut ++ [x])
    (hpre : u.hostOut <+: t.hostOut) (h : allOk s t) : x.st = 0 ∧ allOk u t := by
  obtain ⟨rs, hrs, hok⟩ := h
  obtain ⟨qs, hqs⟩ := hpre
  have hsplit : rs = x :: qs := by
    rw [hrs, hx, List.append_assoc] at hqs
    exact (List.append_cancel_left hqs).symm
  subst hsplit
  exact ⟨hok x List.mem_cons_self, qs, hqs.symm, fun r hr => hok r (List.mem_cons_of_mem x hr)⟩

/-- A run whose responses are all `OK` never leaves the core faulted: the status of a command is the `ERR` it leaves. -/
theorem runsOk_of_runCommands {cs : List Instr} {s t : State} (he : s.err = 0) (h : runCommands cs s = .next t)
    (hok : allOk s t) : RunsOk cs s t := by
  induction cs generalizing s with
  | nil => cases h; exact .nil he
  | cons c cs ih =>
    obtain ⟨u, hu, ht⟩ := runCommands_cons_eq_next.1 h
    obtain ⟨x, hx⟩ := exec_respondsWith hu
    obtain ⟨hst, hok⟩ := allOk_of_hostOut hx.hostOut (runCommands_hostOut ht) hok
    exact .cons he hu (ih ((hx.err he).symm.trans hst) ht hok)

theorem RunsOk.run {cs : List Instr} {s t : State} (h : RunsOk cs s t) : runCommands cs s = .next t := by
  induction h with
  | nil => rfl
  | cons _ hc _ ih => exact (runCommands_cons_of_next hc).trans ih

theorem RunsOk.err_before {cs : List Instr} {s t : State} (h : RunsOk cs s t) : s.err = 0 := by
  cases h <;> assumption

theorem RunsOk.err_after {cs : List Instr} {s t : State} (h : RunsOk cs s t) : t.err = 0 := by
  induction h with
  | nil he => exact he
  | cons _ _ _ ih => exact ih

theorem RunsOk.split {cs ds : List Instr} {s t : State} (h : RunsOk (cs ++ ds) s t) :
    ∃ u, RunsOk cs s u ∧ RunsOk ds u t := by
  induction cs generalizing s with
  | nil => exact ⟨s, .nil h.err_before, h⟩
  | cons c cs ih =>
    cases h with
    | cons he hc hcs =>
      obtain ⟨u, hcs, hds⟩ := ih hcs
      exact ⟨u, .cons he hc hcs, hds⟩

theorem RunsOk.exec_of_singleton {c : Instr} {s t : State} (h : RunsOk [c] s t) : exec c s = .next t := by
  cases h with
  | cons _ hc hcs => cases hcs; exact hc

/-- What every command of a run keeps, the run keeps. -/
theorem RunsOk.keeps {P : State → Prop} {cs : List Instr} {s t : State} (h : RunsOk cs s t)
    (hstep : ∀ c ∈ cs, ∀ s t, exec c s = .next t → P s → P t) (hs : P s) : P t := by
  induction h with
  | nil => exact hs
  | cons _ hc _ ih =>
    exact ih (fun c hm => hstep c (List.mem_cons_of_mem _ hm)) (hstep _ List.mem_cons_self _ _ hc hs)

/-! ## The answer of a `QUERY` -/

theorem getLsbD_queryAnswer_zero (hit : Bool) (probes : BitVec 16) (idx : Word) :
    (queryAnswer hit probes idx).getLsbD 0 = hit := by
  rw [queryAnswer, BitVec.getLsbD_append, flagBit, BitVec.getLsbD_ofBool]
  rfl

/-- `RESULT` is `hit`, and so is bit 0 of the last response (R31, R134). -/
def LastAnswerIs (t : State) (hit : Bool) : Prop :=
  t.result = hit ∧ ∃ r, t.hostOut.getLast? = some r ∧ r.r.getLsbD 0 = hit

theorem lastAnswerIs_respond {s : State} {r : BitVec 128} {hit : Bool} (hs : s.result = hit) (hr : r.getLsbD 0 = hit)
    (st : BitVec 8) : LastAnswerIs (respond s st r) hit :=
  ⟨hs, ⟨st, r⟩, List.getLast?_concat, hr⟩

/-- A plain `QUERY` that leaves the core not faulted answers what its loop finds (R134). -/
theorem exec_query_accepted {s t : State} (h : exec (.query false) s = .next t) (he : t.err = 0) :
    ∃ hit u, queryFrom s.k.toNat 0 s = .ok (hit, u) ∧ LastAnswerIs t hit := by
  rcases execQuery_cases false s t h with ha | ⟨-, -, hnull, -⟩ | ⟨-, -, -, -, hit, u, hu, rfl⟩
  · exact absurd he ha.err_ne_zero
  · cases hnull
  · exact ⟨hit, u, hu, lastAnswerIs_respond rfl (getLsbD_queryAnswer_zero ..) 0⟩

/-! ## No false negatives -/

/-- Every bit that the filter's sizing derives from this digest is set. -/
def Holds (digest : Word × Word) (s : State) : Prop :=
  ∀ i < s.k.toNat,
    filterBit s (deriveValue s.inst.absMin digest.1 digest.2 s.k s.nbits (BitVec.ofNat 16 i)).toNat = true

/-- A digest held stays held under every command but `CFG`, which alone clears bits and changes the sizing (R35, R93). -/
theorem holds_exec {digest : Word × Word} {c : Instr} {s t : State} (hcfg : isCfg c = false) (h : exec c s = .next t)
    (hs : Holds digest s) : Holds digest t := by
  obtain ⟨hinst, hnbits, hk, -, -⟩ := exec_keepsFilter hcfg h
  intro i hi
  rw [hk] at hi
  rw [hinst, hnbits, hk]
  exact exec_filterBit_mono hcfg h (hs i hi)

/-- A `TRAIN` that leaves the core not faulted leaves its digest held (R133). -/
theorem holds_of_exec_train {s t : State} (h : exec .train s = .next t) (he : t.err = 0) : Holds (s.h1, s.h2) t := by
  rcases execTrain_cases s t h with ha | ⟨-, -, -, u, hu, rfl⟩
  · exact absurd he ha.err_ne_zero
  · intro i hi
    have hframe := trainFrom_frame _ _ _ _ hu
    have hturn : i < s.k.toNat := by rw [hframe] at hi; exact hi
    have hset : filterBit u (indexOf s i).toNat = true :=
      (trainFrom_filterBit_iff hu).2 (.inr ⟨i, hturn, by rw [Nat.zero_add]⟩)
    rw [hframe] at hset ⊢
    exact hset

/-- A plain `QUERY` for a digest that is held hits (R134). -/
theorem lastAnswerIs_true_of_holds {s t : State} (h : exec (.query false) s = .next t) (he : t.err = 0)
    (hs : Holds (s.h1, s.h2) s) : LastAnswerIs t true := by
  obtain ⟨hit, u, hloop, hlast⟩ := exec_query_accepted h he
  have hhit : hit = true := queryFrom_hit hloop fun i _ hi => hs i (by omega)
  exact hhit ▸ hlast

/-- `HASH` leaves the hash of its bytes as the digest (R79, R109). -/
theorem RunsOk.digest {seed : BitVec 32} {b : List Byte} {s t : State} (h : RunsOk (hashCommands seed b) s t)
    (hlen : b.length ≤ 2 ^ 64 - 1) : (t.h1, t.h2) = hashMessage seed b := by
  obtain ⟨hjoin, hpieces, -⟩ := piecesRejoinToTheMessage b
  obtain ⟨u, hrun, hdigest, -⟩ := hashCommandsComputeTheHash seed false (cutPieces b.length b) s h.err_before hpieces
    (fun h => nomatch h) (hjoin.symm ▸ hlen)
  cases h.run.symm.trans hrun
  rw [hjoin] at hdigest
  exact hdigest

theorem isCfg_of_mem_hashCommands {seed : BitVec 32} {b : List Byte} {c : Instr} (h : c ∈ hashCommands seed b) :
    isCfg c = false := by
  simp only [hashCommands, List.mem_cons, List.mem_append, List.mem_map, List.not_mem_nil, or_false] at h
  rcases h with rfl | ⟨p, -, rfl⟩ | rfl <;> rfl

/-- Settles O45: `TRAIN` leaves the element's digest held, no command between clears a bit, and the same bytes have the
same digest. -/
theorem noFalseNegatives : Obligations.NoFalseNegatives := by
  intro b cs s t hlen he hcs h hok
  obtain ⟨inserted, hinsert, hlater⟩ := (runsOk_of_runCommands he h hok).split
  obtain ⟨hashed, hhash, htrain⟩ := hinsert.split
  obtain ⟨asked, hbetween, hcontains⟩ := hlater.split
  obtain ⟨rehashed, hrehash, hquery⟩ := hcontains.split
  have hinserted : Holds (hashed.h1, hashed.h2) inserted :=
    holds_of_exec_train htrain.exec_of_singleton htrain.err_after
  have hdigest : (hashed.h1, hashed.h2) = (rehashed.h1, rehashed.h2) :=
    (hhash.digest hlen).trans (hrehash.digest hlen).symm
  have hasked := hbetween.keeps (fun c hc _ _ => holds_exec (hcs c hc)) hinserted
  have hrehashed := hrehash.keeps (fun c hc _ _ => holds_exec (isCfg_of_mem_hashCommands hc)) hasked
  exact lastAnswerIs_true_of_holds hquery.exec_of_singleton hquery.err_after (hdigest ▸ hrehashed)

/-! ## The empty filter -/

/-- A filter of at least one hash function and one bit, with no bit set. -/
structure HoldsNothing (s : State) : Prop where
  k : 1 ≤ s.k.toNat
  nbits : s.nbits ≠ 0
  clear : ∀ j < s.nbits.toNat, filterBit s j = false

/-- A `CFG` that leaves the core not faulted leaves a filter that holds nothing (R131). -/
theorem holdsNothing_of_exec_cfg {s t : State} {nbits : Word} {k : BitVec 16} (h : exec (.cfg nbits k) s = .next t)
    (he : t.err = 0) : HoldsNothing t := by
  have hclear : ∀ j < 64 * t.awords.toNat, filterBit t j = false := fun j => exec_cfg_filterBit h he
  rcases execCfg_cases nbits k s t h with ha | ⟨-, hn, -, hk, -, hexact, m, rfl, -⟩
  · exact absurd he ha.err_ne_zero
  · refine ⟨Nat.pos_of_ne_zero (BitVec.toNat_ne.1 hk), hn, fun j hj => hclear j ?_⟩
    exact (hj.trans_le (toNat_le_allocWords nbits)).trans_eq (congrArg (64 * ·) hexact.symm)

/-- It stays so under every command but `CFG`, `TRAIN` and `BSET`, which alone write `MEM` or the sizing. -/
theorem holdsNothing_exec {c : Instr} {s t : State} (hcfg : isCfg c = false) (htrain : c ≠ .train)
    (hbset : ∀ idx, c ≠ .bset idx) (h : exec c s = .next t) (hs : HoldsNothing s) : HoldsNothing t := by
  obtain ⟨-, hnbits, hk, -, -⟩ := exec_keepsFilter hcfg h
  refine ⟨hk ▸ hs.k, hnbits ▸ hs.nbits, fun j hj => ?_⟩
  rw [filterBit_of_mem_eq (exec_mem hcfg htrain hbset h)]
  exact hs.clear j (hnbits ▸ hj)

/-- The first bit tested is not set (R134). -/
theorem queryFrom_of_holdsNothing {s u : State} {hit : Bool} (hs : HoldsNothing s)
    (h : queryFrom s.k.toNat 0 s = .ok (hit, u)) : hit = false := by
  rw [← Nat.sub_add_cancel hs.k] at h
  rw [queryFrom_succ (turnDefined_of_queryFrom h), hs.clear _ (toNat_indexOf_lt hs.nbits 0)] at h
  cases h
  rfl

/-- Either form of `QUERY` on a filter that holds nothing answers 0 (R134). -/
theorem lastAnswerIs_false_of_holdsNothing {s t : State} {null : Bool} (h : exec (.query null) s = .next t)
    (he : t.err = 0) (hs : HoldsNothing s) : LastAnswerIs t false := by
  cases null with
  | true =>
    rcases execQuery_cases true s t h with ha | ⟨-, -, -, rfl⟩ | ⟨-, -, hnull, -⟩
    · exact absurd he ha.err_ne_zero
    · exact lastAnswerIs_respond rfl rfl 0
    · cases hnull
  | false =>
    obtain ⟨hit, u, hloop, hlast⟩ := exec_query_accepted h he
    exact queryFrom_of_holdsNothing hs hloop ▸ hlast

/-- Settles O46: after `CFG` no bit of the filter is set, and without `CFG`, `TRAIN` and `BSET` none gets set. -/
theorem emptyFilterHoldsNothing : Obligations.EmptyFilterHoldsNothing := by
  intro nbits k cs null s t he hcs h hok
  cases runsOk_of_runCommands he h hok with
  | cons _ hcfg hlater =>
    obtain ⟨asked, hbetween, hquery⟩ := hlater.split
    have hconfigured := holdsNothing_of_exec_cfg hcfg hbetween.err_before
    have hasked : HoldsNothing asked := by
      refine hbetween.keeps (fun c hc _ _ hexec => ?_) hconfigured
      obtain ⟨hnoCfg, hnoTrain, hnoBset⟩ := hcs c hc
      exact holdsNothing_exec hnoCfg hnoTrain hnoBset hexec
    exact lastAnswerIs_false_of_holdsNothing hquery.exec_of_singleton hquery.err_after hasked

end Sys2Proof.Machine
end

section
/-! The system commands: what `RDREG` answers (R150) and that `ERRCLR` clears (R151): O13, O16. -/
namespace Sys2Proof.Machine

open Sys2Proof.Safety

/-! ## The register map -/

/-- The map of R38 is read back from its own numbers. -/
@[simp] theorem regOfNumber_regNumber (name : RegName) : regOfNumber (regNumber name) = some name := by
  cases name <;> rfl

theorem readAnswers_of_regValue {s : State} {v : Word} (name : RegName) (h : regValue s name = v) :
    readAnswers s (regNumber name) v := by
  rw [readAnswers, exec, execRdreg, regOfNumber_regNumber, ← setWidth_eq_zero_append, ← h]
  rfl

/-! ## Reserved register numbers -/

theorem illegalWord_of_err_ne_zero {s : State} (h : s.err ≠ 0) (head : BitVec 16) :
    illegalWord head s = refuseFaulted s := by
  rw [illegalWord, if_pos ((faulted_iff s).2 h)]

/-- An illegal word in the terms of the statements: raised on a core that is not faulted, refused on one that is
(R75, R164). -/
theorem illegalWord_eq_ite (s : State) (op a : BitVec 8) :
    illegalWord (op ++ a) s = if s.err = 0 then raised s 0x01#8 op a else answered s 0x7F#8 0 := by
  split
  case isTrue h => exact illegalWord_of_err_zero h _
  case isFalse h => exact illegalWord_of_err_ne_zero h _

/-- Settles O13: each of the sixteen numbers is the number of its register, and a reserved one makes an illegal word. -/
theorem rdregAnswersEachRegister : Obligations.RdregAnswersEachRegister := by
  intro s
  exact ⟨readAnswers_of_regValue .ID rfl,
    readAnswers_of_regValue .PARAM rfl,
    readAnswers_of_regValue .STATUS rfl,
    readAnswers_of_regValue .ERR (BitVec.setWidth_eq_append (by decide)),
    readAnswers_of_regValue .ERRCMD (BitVec.setWidth_eq_append (by decide)),
    readAnswers_of_regValue .NBITS rfl,
    readAnswers_of_regValue .K (BitVec.setWidth_eq_append (by decide)),
    readAnswers_of_regValue .AWORDS (BitVec.setWidth_eq_append (by decide)),
    readAnswers_of_regValue .SEED (BitVec.setWidth_eq_append (by decide)),
    readAnswers_of_regValue .H1 rfl,
    readAnswers_of_regValue .H2 rfl,
    readAnswers_of_regValue .LEN rfl,
    readAnswers_of_regValue .BUFLO rfl,
    readAnswers_of_regValue .BUFHI rfl,
    readAnswers_of_regValue .IDX rfl,
    readAnswers_of_regValue .PROBES (BitVec.setWidth_eq_append (by decide)),
    fun rn hrn =>
      (exec_of_not_wellFormed (not_wellFormed_rdreg_iff.2 hrn) s).trans
        (congrArg Host.Outcome.next (illegalWord_eq_ite s 0x10#8 rn))⟩

/-! ## `ERRCLR` -/

/-- Settles O16: `ERRCLR` makes no test, not even the faulted one, and answers the state with the error cleared. -/
theorem errclrClearsTheError : Obligations.ErrclrClearsTheError := by
  intro s
  rw [exec, execErrclr_eq]
  rfl

end Sys2Proof.Machine
end

section
/-! The error record and the faulted condition (R163 to R168), and the step that has nothing to do (R175): O10, O47, O48,
O49. -/
namespace Sys2Proof.Machine

open Sys2Proof.Safety

/-- Settles O10: with nothing sent there is no event to take. -/
theorem stepWithNothingSentHoldsTheState : Obligations.StepWithNothingSentHoldsTheState :=
  fun _ => step_of_nothing_sent

/-! ## The error record -/

/-- The error record of `s` stands in `t`. -/
def KeepsError (s t : State) : Prop := t.err = s.err ∧ t.errcmd = s.errcmd

/-- A command that is not turned away does not write the error record, but for `ERRCLR`, which clears it (R151, R168). -/
theorem exec_error_cases {c : Instr} {s t : State} (h : exec c s = .next t) :
    TurnedAway s t (commandHead c) ∨ KeepsError s t ∨ (c = .errclr ∧ t.err = 0 ∧ t.errcmd = 0) := by
  cases c with
  | errclr => cases h; exact .inr (.inr ⟨rfl, rfl, rfl⟩)
  | rdreg rn =>
    rcases execRdreg_cases rn s t h with ⟨-, ha⟩ | ⟨_, -, rfl⟩
    · exact .inl ha
    · exact .inr (.inl ⟨rfl, rfl⟩)
  | bget idx =>
    rcases execBget_cases idx s t h with ha | ⟨-, -, -, -, rfl⟩
    · exact .inl ha
    · exact .inr (.inl ⟨rfl, rfl⟩)
  | bset idx =>
    rcases execBset_cases idx s t h with ha | ⟨-, -, -, -, u, hu, rfl⟩
    · exact .inl ha
    · rw [((bitSet_eq_ok s idx u).1 hu).2]
      exact .inr (.inl ⟨rfl, rfl⟩)
  | hstart blkonly seed =>
    rcases execHstart_cases blkonly seed s t h with ha | ⟨-, rfl⟩
    · exact .inl ha
    · exact .inr (.inl ⟨rfl, rfl⟩)
  | hpush n d =>
    rcases execHpush_cases n d s t h with ha | ⟨-, -, -, -, -, -, rfl⟩
    · exact .inl ha
    · obtain ⟨h1, h2, buf, fill, e⟩ := absorb_frame s (pieceBytes n d)
      rw [e]
      exact .inr (.inl ⟨rfl, rfl⟩)
  | hfin =>
    rcases execHfin_cases s t h with ha | ⟨-, -, h1, h2, rfl, -⟩
    · exact .inl ha
    · exact .inr (.inl ⟨rfl, rfl⟩)
  | dload h1 h2 =>
    rcases execDload_cases h1 h2 s t h with ha | ⟨-, -, rfl⟩
    · exact .inl ha
    · exact .inr (.inl ⟨rfl, rfl⟩)
  | derive i =>
    rcases execDerive_cases i s t h with ha | ⟨-, -, -, -, -, rfl⟩
    · exact .inl ha
    · exact .inr (.inl ⟨rfl, rfl⟩)
  | cfg nbits k =>
    rcases execCfg_cases nbits k s t h with ha | ⟨-, -, -, -, -, -, m, rfl, -⟩
    · exact .inl ha
    · exact .inr (.inl ⟨rfl, rfl⟩)
  | sealFilter =>
    rcases execSeal_cases s t h with ha | ⟨-, -, rfl⟩
    · exact .inl ha
    · exact .inr (.inl ⟨rfl, rfl⟩)
  | train =>
    rcases execTrain_cases s t h with ha | ⟨-, -, -, u, hu, rfl⟩
    · exact .inl ha
    · rw [trainFrom_frame _ _ _ _ hu]
      exact .inr (.inl ⟨rfl, rfl⟩)
  | query null =>
    rcases execQuery_cases null s t h with ha | ⟨-, -, -, rfl⟩ | ⟨-, -, -, -, hit, u, hu, rfl⟩
    · exact .inl ha
    · exact .inr (.inl ⟨rfl, rfl⟩)
    · rw [queryFrom_frame _ _ _ _ _ hu]
      exact .inr (.inl ⟨rfl, rfl⟩)

/-- On a core that is not faulted, a command turned away has raised its error and done nothing else (R163). -/
theorem TurnedAway.eq_raised {s t : State} {op a : BitVec 8} (h : TurnedAway s t (op ++ a)) (he : s.err = 0) :
    t = raised s t.err op a ∧ t.err.toNat ≤ 8 := by
  rcases h with ⟨hne, -⟩ | ⟨-, e, rfl⟩
  · exact absurd he hne
  · exact ⟨rfl, errCode_le e⟩

/-- Settles O47: a command that is not turned away leaves `ERR` zero, so one that leaves it nonzero was turned away. -/
theorem errorsArePrecise : Obligations.ErrorsArePrecise := by
  intro i s t he h hne
  rcases exec_error_cases h with ha | ⟨hkept, -⟩ | ⟨-, hcleared, -⟩
  · exact ha.eq_raised he
  · exact absurd (hkept.trans he) hne
  · exact absurd hcleared hne

/-- A command turned away by a faulted core keeps the first error (R164, R166). -/
theorem TurnedAway.keepsError {s t : State} {head : BitVec 16} (h : TurnedAway s t head) (he : s.err ≠ 0) :
    KeepsError s t := by
  rcases h with ⟨-, rfl⟩ | ⟨h0, -⟩
  · exact ⟨rfl, rfl⟩
  · exact absurd h0 he

/-- Settles O49, by what a step can do and by what the command it runs does to the error record. -/
theorem firstErrorStaysUntilCleared : Obligations.FirstErrorStaysUntilCleared := by
  intro s t he h
  rcases step_cases h with ⟨-, rfl⟩ | ⟨rest, hin, rfl⟩ | ⟨w, rest, hin, ⟨i, hw, hi⟩ | ha⟩
  · exact .inl ⟨rfl, rfl⟩
  · exact .inr ⟨rfl, rfl, rest, .inr hin⟩
  · rcases exec_error_cases hi with ha | hkept | ⟨rfl, herr, herrcmd⟩
    · exact .inl (ha.keepsError he)
    · exact .inl hkept
    · obtain ⟨hword, -⟩ := encodeOfDecodeIsTheWord w _ hw
      exact .inr ⟨herr, herrcmd, rest, .inl (hword ▸ hin)⟩
  · exact .inl (ha.keepsError he)

/-! ## The faulted condition -/

/-- A faulted core refuses every command but a legal `RDREG` and `ERRCLR`: an ill-formed one as an illegal word, another
one by the test its meaning begins with (R164). -/
theorem exec_of_err_ne_zero {i : Instr} {s : State} (he : s.err ≠ 0) (hi : acceptedWhileFaulted i = false) :
    exec i s = .next (refuseFaulted s) := by
  cases hwf : wellFormed i with
  | false => rw [exec_of_not_wellFormed hwf, illegalWord_of_err_ne_zero he]
  | true =>
    cases i with
    | rdreg rn => exact absurd (wellFormed_rdreg_iff.1 hwf) (of_decide_eq_false hi)
    | errclr => cases hi
    | hpush n d =>
      have hcount := wellFormed_hpush_iff.1 hwf
      rw [exec, execHpush, if_neg (by omega)]
      exact whenReady_of_err_ne _ _ he
    | _ => exact whenReady_of_err_ne _ _ he

/-- A faulted core refuses every word that encodes neither, illegal words included (R162 step 1, R164). -/
theorem runWord_of_err_ne_zero {w : CommandWord} {s : State} (he : s.err ≠ 0)
    (hw : ∀ i, decode w = .ok i → acceptedWhileFaulted i = false) : runWord w s = .next (refuseFaulted s) := by
  cases hd : decode w with
  | ok i => rw [runWord_of_decode hd, exec_of_err_ne_zero he (hw i hd)]
  | error e => rw [runWord_of_reject hd, illegalWord_of_err_ne_zero he]

/-- Settles O48: the step runs the word it takes, and a faulted core refuses it. -/
theorem faultedCoreRefusesEveryOtherWord : Obligations.FaultedCoreRefusesEveryOtherWord := by
  intro s w rest he hin hw
  rw [step_of_command_sent hin, runWord_of_err_ne_zero (s := { s with hostIn := rest }) he hw]
  rfl

end Sys2Proof.Machine
end

section
/-! The reset event and the absence of hazards: what it leaves (R42, R190), that every step answers (R199), and that no
run shows what `MEM` held at reset (R192): O11, O57, O59. -/
namespace Sys2Proof.Machine

open Sys2Proof.Safety

/-- Settles O11: `MEM` is left at the free value of log 6, put into canonical form. -/
theorem resetEventZeroesEveryElement : Obligations.ResetEventZeroesEveryElement := by
  intro s rest hin
  obtain ⟨hform, hsize⟩ := Memory.ofCells_spec s.inst.nwords.toNat (Config.memAfterReset s.draws)
  exact ⟨_, hform, hsize, step_of_reset_sent hin⟩

/-! ## Outcomes that are a next state -/

/-- An outcome that is neither a fault nor a refusal. -/
def Answers (r : Result) : Prop := ∃ t, r = .next t

theorem answers_next (t : State) : Answers (.next t) := ⟨t, rfl⟩

/-- A test that ends the command with a next state, as a raise does, leaves open only whether the rest answers. -/
theorem answers_check {p : Prop} [Decidable p] {t : State} {body : Result} (hb : ¬ p → Answers body) :
    Answers (if p then .next t else body) := by
  by_cases hp : p
  · rw [if_pos hp]; exact answers_next t
  · rw [if_neg hp]; exact hb hp

theorem answers_whenReady {s : State} {body : Result} (hb : Answers body) : Answers (whenReady s body) :=
  answers_check fun _ => hb

/-! ## The commands that access `MEM` or derive an index -/

theorem execBget_answers (idx : Word) {s : State} (h : Inv s) : Answers (execBget idx s) := by
  refine answers_whenReady (answers_check fun hp => answers_check fun hr => ?_)
  rw [bitGet_of_inside s idx (indexInside_of_inv h hp (Nat.lt_of_not_le hr))]
  exact answers_next _

theorem execBset_answers (idx : Word) {s : State} (h : Inv s) : Answers (execBset idx s) := by
  refine answers_whenReady (answers_check fun hp => answers_check fun _ => answers_check fun hr => ?_)
  obtain ⟨m, hset, -⟩ := bitSet_spec s idx (indexInside_of_inv h hp (Nat.lt_of_not_le hr))
  rw [hset]
  exact answers_next _

theorem execDerive_answers (i : BitVec 16) {s : State} (h : Inv s) : Answers (execDerive i s) := by
  refine answers_whenReady (answers_check fun hp => answers_check fun _ => answers_check fun _ => ?_)
  rw [deriveIndex_of_ne_zero s i (mt h.unconf_iff.2 hp)]
  exact answers_next _

/-- `CFG` needs no invariant: its own checks place the words it clears inside `MEM` (R131). -/
theorem execCfg_answers (nbits : Word) (k : BitVec 16) (s : State) : Answers (execCfg nbits k s) := by
  refine answers_whenReady (answers_check fun _ => answers_check fun hfit => answers_check fun _ =>
    answers_check fun _ => ?_)
  have hfit' := Nat.le_of_not_lt hfit
  obtain ⟨m, hclear, -⟩ := clearWords_spec
    { s with nbits := nbits, k := k, awords := BitVec.ofNat 32 (allocWords nbits) } (allocWords nbits)
    (toNat_allocWords hfit').ge hfit'
  rw [hclear]
  exact answers_next _

theorem execTrain_answers {s : State} (h : Inv s) : Answers (execTrain s) := by
  refine answers_whenReady (answers_check fun hp => answers_check fun _ => answers_check fun _ => ?_)
  obtain ⟨t, ht⟩ := trainFrom_completes (turnDefined_of_inv h hp) s.k.toNat 0
  rw [ht]
  exact answers_next _

theorem queryFrom_completes {s : State} (h : ∀ i, TurnDefined s i) (n i : Nat) : ∃ r, queryFrom n i s = .ok r := by
  induction n generalizing i s with
  | zero => exact ⟨_, rfl⟩
  | succ n ih =>
    rw [queryFrom_succ (h i)]
    split
    next => exact ih (s := queried s i) h (i + 1)
    next => exact ⟨_, rfl⟩

theorem execQuery_answers (null : Bool) {s : State} (h : Inv s) : Answers (execQuery null s) := by
  refine answers_whenReady (answers_check fun hp => answers_check fun _ => answers_check fun _ => ?_)
  obtain ⟨⟨hit, t⟩, ht⟩ := queryFrom_completes (turnDefined_of_inv h hp) s.k.toNat 0
  rw [ht]
  exact answers_next _

/-! ## Every command and every step -/

/-- The commands that neither access `MEM` nor derive an index answer from any state. -/
theorem exec_answers (c : Instr) {s : State} (h : Inv s) : Answers (exec c s) := by
  cases c with
  | rdreg rn =>
    show Answers (execRdreg rn s)
    unfold execRdreg
    cases regOfNumber rn with
    | some name => exact answers_next _
    | none => exact answers_next _
  | errclr => exact answers_next _
  | bget idx => exact execBget_answers idx h
  | bset idx => exact execBset_answers idx h
  | hstart blkonly seed => exact answers_whenReady (answers_next _)
  | hpush n d =>
    exact answers_check fun _ => answers_whenReady
      (answers_check fun _ => answers_check fun _ => answers_check fun _ => answers_next _)
  | hfin => exact answers_whenReady (answers_check fun _ => answers_next _)
  | dload h1 h2 => exact answers_whenReady (answers_check fun _ => answers_next _)
  | derive i => exact execDerive_answers i h
  | cfg nbits k => exact execCfg_answers nbits k s
  | sealFilter => exact answers_whenReady (answers_check fun _ => answers_next _)
  | train => exact execTrain_answers h
  | query null => exact execQuery_answers null h

theorem runWord_answers (w : CommandWord) {s : State} (h : Inv s) : Answers (runWord w s) := by
  unfold runWord
  cases decode w with
  | ok i => exact exec_answers i h
  | error e => exact answers_next _

/-- Settles O57, by the event taken: only a word can meet a fault, and by R41 none does. -/
theorem everyStepAnswers : Obligations.EveryStepAnswers := by
  intro s h
  match hin : s.hostIn with
  | [] => exact ⟨_, step_of_nothing_sent hin⟩
  | .reset :: rest => exact ⟨_, step_of_reset_sent hin⟩
  | .command w :: rest =>
    rw [step_of_command_sent hin]
    exact runWord_answers w (inv_hostIn h rest)

/-! ## Runs -/

/-- The invariants of the first of two states that differ in hidden words only let both step, to two such states. -/
theorem step_sameVisible {s t : State} (h : Inv s) (hv : SameVisible s t) :
    ∃ s' t', step s = .next s' ∧ step t = .next t' ∧ SameVisible s' t' := by
  obtain ⟨u, hu⟩ := everyStepAnswers s h
  rcases hiddenMemoryIsUnobservable s t hv with hnext | ⟨f, hf, -⟩
  · exact hnext
  · rw [hu] at hf
    cases hf

/-- Two runs from such states answer, step by step, two such states. -/
theorem runSteps_sameVisible (n : Nat) {s t : State} (h : Inv s) (hv : SameVisible s t) :
    ∃ s' t', runSteps n s = .next s' ∧ runSteps n t = .next t' ∧ SameVisible s' t' := by
  induction n generalizing s t with
  | zero => exact ⟨s, t, rfl, rfl, hv⟩
  | succ n ih =>
    obtain ⟨u, v, hu, hw, huv⟩ := step_sameVisible h hv
    simp only [runSteps, hu, hw]
    exact ih (stepKeepsTheInvariants s u h hu) huv

theorem hostOut_of_sameVisible {s t : State} (h : SameVisible s t) : s.hostOut = t.hostOut := by rw [← h.others]

/-- Settles O59: at reset all of `MEM` is hidden, so the two runs start alike and stay so. -/
theorem runsDoNotDependOnMemoryAtReset : Obligations.RunsDoNotDependOnMemoryAtReset := by
  intro c events m m' n hform _ hsize _
  have hinv := inv_of_reset_elements c m events [] 0 hform hsize
  have hhidden : SameVisible { State.reset with inst := c, mem := m, hostIn := events }
      { State.reset with inst := c, mem := m', hostIn := events } := ⟨rfl, fun hconf => absurd rfl hconf⟩
  obtain ⟨t, t', ht, ht', hv⟩ := runSteps_sameVisible n hinv hhidden
  exact ⟨t, t', ht, ht', hostOut_of_sameVisible hv⟩

end Sys2Proof.Machine
end
